-- ==== Sys2Proof/Word.lean ====
section
/-! DEFINITION. The machine's bit widths (spec/10_state.md R10 to R16, spec/30_encoding.md R61). All values are
unsigned (spec/00_scope.md R5); `a ++ b` is the spec's concatenation with `a` in the upper bits. -/

namespace Sys2Proof

/-- A memory byte or a general register, 8 bits (R10, R40). -/
abbrev Byte := BitVec 8

/-- An instruction word, `I`, `pc` or a return address, 16 bits (R12, R13, R14, R60). -/
abbrev Word := BitVec 16

/-- A register selector or 4-bit immediate (R61). -/
abbrev Nibble := BitVec 4

/-- A 12-bit address operand (R61). -/
abbrev Addr := BitVec 12

end Sys2Proof
end

