-- ==== Sys2Proof/Syntax.lean ====
section
/-! DEFINITION. The 34 instructions of spec/opcode_table.json (spec/30_encoding.md R65), one constructor per row in
the table's order, with the operand fields of R61 that the row uses, and the assembler spelling of R69. -/

namespace Sys2Proof

/-- The instructions of R65. `x`, `y` are register selectors, `n` the 4-bit immediate, `nn` the 8-bit immediate and
`nnn` the 12-bit address operand (R61, R63). -/
inductive Instr where
  | cls
  | ret
  | jp (nnn : Addr)
  | call (nnn : Addr)
  | seImm (x : Nibble) (nn : Byte)
  | sneImm (x : Nibble) (nn : Byte)
  | seReg (x y : Nibble)
  | ldImm (x : Nibble) (nn : Byte)
  | addImm (x : Nibble) (nn : Byte)
  | ldReg (x y : Nibble)
  | orReg (x y : Nibble)
  | andReg (x y : Nibble)
  | xorReg (x y : Nibble)
  | addReg (x y : Nibble)
  | sub (x y : Nibble)
  | shr (x y : Nibble)
  | subn (x y : Nibble)
  | shl (x y : Nibble)
  | sneReg (x y : Nibble)
  | ldI (nnn : Addr)
  | jpV0 (nnn : Addr)
  | rnd (x : Nibble) (nn : Byte)
  | drw (x y n : Nibble)
  | skp (x : Nibble)
  | sknp (x : Nibble)
  | ldVxDt (x : Nibble)
  | ldVxK (x : Nibble)
  | ldDtVx (x : Nibble)
  | ldStVx (x : Nibble)
  | addI (x : Nibble)
  | ldF (x : Nibble)
  | ldB (x : Nibble)
  | stRegs (x : Nibble)
  | ldRegs (x : Nibble)
  deriving DecidableEq, Repr

/-- The hexadecimal digit that names a register (R69). -/
def hexDigit (x : Nibble) : Char :=
  "0123456789ABCDEF".toList.getD x.toNat '0'

/-- `V0` to `VF` (R69). -/
def asmReg (x : Nibble) : String := "V" ++ String.singleton (hexDigit x)

/-- A mnemonic and its operands separated by commas (R69). -/
def asmLine (mnemonic : String) (operands : List String) : String :=
  if operands.isEmpty then mnemonic else mnemonic ++ " " ++ String.intercalate ", " operands

/-- The spelling of every instruction, the `syntax` column of R65, numbers in decimal (R69). -/
def Instr.asm : Instr → String
  | .cls => "CLS"
  | .ret => "RET"
  | .jp nnn => asmLine "JP" [toString nnn.toNat]
  | .call nnn => asmLine "CALL" [toString nnn.toNat]
  | .seImm x nn => asmLine "SE" [asmReg x, toString nn.toNat]
  | .sneImm x nn => asmLine "SNE" [asmReg x, toString nn.toNat]
  | .seReg x y => asmLine "SE" [asmReg x, asmReg y]
  | .ldImm x nn => asmLine "LD" [asmReg x, toString nn.toNat]
  | .addImm x nn => asmLine "ADD" [asmReg x, toString nn.toNat]
  | .ldReg x y => asmLine "LD" [asmReg x, asmReg y]
  | .orReg x y => asmLine "OR" [asmReg x, asmReg y]
  | .andReg x y => asmLine "AND" [asmReg x, asmReg y]
  | .xorReg x y => asmLine "XOR" [asmReg x, asmReg y]
  | .addReg x y => asmLine "ADD" [asmReg x, asmReg y]
  | .sub x y => asmLine "SUB" [asmReg x, asmReg y]
  | .shr x y => asmLine "SHR" [asmReg x, asmReg y]
  | .subn x y => asmLine "SUBN" [asmReg x, asmReg y]
  | .shl x y => asmLine "SHL" [asmReg x, asmReg y]
  | .sneReg x y => asmLine "SNE" [asmReg x, asmReg y]
  | .ldI nnn => asmLine "LD" ["I", toString nnn.toNat]
  | .jpV0 nnn => asmLine "JP" ["V0", toString nnn.toNat]
  | .rnd x nn => asmLine "RND" [asmReg x, toString nn.toNat]
  | .drw x y n => asmLine "DRW" [asmReg x, asmReg y, toString n.toNat]
  | .skp x => asmLine "SKP" [asmReg x]
  | .sknp x => asmLine "SKNP" [asmReg x]
  | .ldVxDt x => asmLine "LD" [asmReg x, "DT"]
  | .ldVxK x => asmLine "LD" [asmReg x, "K"]
  | .ldDtVx x => asmLine "LD" ["DT", asmReg x]
  | .ldStVx x => asmLine "LD" ["ST", asmReg x]
  | .addI x => asmLine "ADD" ["I", asmReg x]
  | .ldF x => asmLine "LD" ["F", asmReg x]
  | .ldB x => asmLine "LD" ["B", asmReg x]
  | .stRegs x => asmLine "LD" ["[I]", asmReg x]
  | .ldRegs x => asmLine "LD" [asmReg x, "[I]"]

end Sys2Proof
end

