-- ==== Sys2Proof/WellFormed.lean ====
section
/-! DEFINITION. Well-formed instructions. The spec gives one condition on an operand: it fits its field
(spec/30_encoding.md R61, R63); every value that fits is valid ("all 16 values are valid", R63). The operand types
carry the widths, so every term of `Instr` passes the check; what the check refuses is a number that does not fit. -/

namespace Sys2Proof

/-- A number fits a field of `width` bits (R63). -/
def fits (width value : Nat) : Bool := decide (value < 2 ^ width)

/-- The operands of an instruction as (field width, value) pairs, in the order of its assembler line. -/
def Instr.operands : Instr → List (Nat × Nat)
  | .cls | .ret => []
  | .jp nnn | .call nnn | .ldI nnn | .jpV0 nnn => [(12, nnn.toNat)]
  | .seImm x nn | .sneImm x nn | .ldImm x nn | .addImm x nn | .rnd x nn => [(4, x.toNat), (8, nn.toNat)]
  | .seReg x y | .ldReg x y | .orReg x y | .andReg x y | .xorReg x y | .addReg x y | .sub x y | .shr x y
  | .subn x y | .shl x y | .sneReg x y => [(4, x.toNat), (4, y.toNat)]
  | .drw x y n => [(4, x.toNat), (4, y.toNat), (4, n.toNat)]
  | .skp x | .sknp x | .ldVxDt x | .ldVxK x | .ldDtVx x | .ldStVx x | .addI x | .ldF x | .ldB x | .stRegs x
  | .ldRegs x => [(4, x.toNat)]

/-- Every operand fits its field. -/
def Instr.wellFormed (i : Instr) : Bool := i.operands.all fun p => fits p.1 p.2

end Sys2Proof
end

