-- ==== Sys2Proof/Decode.lean ====
section
/-! DEFINITION. The decoder and the encoder (spec/30_encoding.md R60 to R68). The decoder is total: every word is one
instruction or unrecognised (R64). `opcodeTable` is the table of R65 as rows of mask and match; `decode` is the
dispatch R64 describes, first on the family, then on the function field. -/

namespace Sys2Proof

/-- `fam` = `op[15:12]` (R61). -/
def fieldFam (op : Word) : Nibble := op.extractLsb' 12 4

/-- `X` = `op[11:8]` (R61). -/
def fieldX (op : Word) : Nibble := op.extractLsb' 8 4

/-- `Y` = `op[7:4]` (R61). -/
def fieldY (op : Word) : Nibble := op.extractLsb' 4 4

/-- `N` = `op[3:0]` (R61). -/
def fieldN (op : Word) : Nibble := op.extractLsb' 0 4

/-- `NN` = `op[7:0]` (R61). -/
def fieldNN (op : Word) : Byte := op.extractLsb' 0 8

/-- `NNN` = `op[11:0]` (R61). -/
def fieldNNN (op : Word) : Addr := op.extractLsb' 0 12

/-- Family 0 matches the whole word (R64, R67). -/
def decodeFamily0 (op : Word) : Option Instr :=
  if op = 0x00E0#16 then some .cls else if op = 0x00EE#16 then some .ret else none

/-- Family 8: the function is `N` (R64, R65). -/
def decodeFamily8 (x y n : Nibble) : Option Instr :=
  if n = 0x0#4 then some (.ldReg x y)
  else if n = 0x1#4 then some (.orReg x y)
  else if n = 0x2#4 then some (.andReg x y)
  else if n = 0x3#4 then some (.xorReg x y)
  else if n = 0x4#4 then some (.addReg x y)
  else if n = 0x5#4 then some (.sub x y)
  else if n = 0x6#4 then some (.shr x y)
  else if n = 0x7#4 then some (.subn x y)
  else if n = 0xE#4 then some (.shl x y)
  else none

/-- Family E: the function is `NN` (R64, R65). -/
def decodeFamilyE (x : Nibble) (nn : Byte) : Option Instr :=
  if nn = 0x9E#8 then some (.skp x) else if nn = 0xA1#8 then some (.sknp x) else none

/-- Family F: the function is `NN` (R64, R65). -/
def decodeFamilyF (x : Nibble) (nn : Byte) : Option Instr :=
  if nn = 0x07#8 then some (.ldVxDt x)
  else if nn = 0x0A#8 then some (.ldVxK x)
  else if nn = 0x15#8 then some (.ldDtVx x)
  else if nn = 0x18#8 then some (.ldStVx x)
  else if nn = 0x1E#8 then some (.addI x)
  else if nn = 0x29#8 then some (.ldF x)
  else if nn = 0x33#8 then some (.ldB x)
  else if nn = 0x55#8 then some (.stRegs x)
  else if nn = 0x65#8 then some (.ldRegs x)
  else none

/-- The instruction a word stands for, or `none` for an unrecognised word (R64, R66, R67). -/
def decode (op : Word) : Option Instr :=
  match (fieldFam op).toNat with
  | 0 => decodeFamily0 op
  | 1 => some (.jp (fieldNNN op))
  | 2 => some (.call (fieldNNN op))
  | 3 => some (.seImm (fieldX op) (fieldNN op))
  | 4 => some (.sneImm (fieldX op) (fieldNN op))
  | 5 => if fieldN op = 0x0#4 then some (.seReg (fieldX op) (fieldY op)) else none
  | 6 => some (.ldImm (fieldX op) (fieldNN op))
  | 7 => some (.addImm (fieldX op) (fieldNN op))
  | 8 => decodeFamily8 (fieldX op) (fieldY op) (fieldN op)
  | 9 => if fieldN op = 0x0#4 then some (.sneReg (fieldX op) (fieldY op)) else none
  | 10 => some (.ldI (fieldNNN op))
  | 11 => some (.jpV0 (fieldNNN op))
  | 12 => some (.rnd (fieldX op) (fieldNN op))
  | 13 => some (.drw (fieldX op) (fieldY op) (fieldN op))
  | 14 => decodeFamilyE (fieldX op) (fieldNN op)
  | 15 => decodeFamilyF (fieldX op) (fieldNN op)
  | _ => none

/-- The word of an instruction, from the patterns of R65 and the formats of R62. -/
def encode : Instr → Word
  | .cls => 0x00E0#16
  | .ret => 0x00EE#16
  | .jp nnn => 0x1#4 ++ nnn
  | .call nnn => 0x2#4 ++ nnn
  | .seImm x nn => 0x3#4 ++ x ++ nn
  | .sneImm x nn => 0x4#4 ++ x ++ nn
  | .seReg x y => 0x5#4 ++ x ++ y ++ 0x0#4
  | .ldImm x nn => 0x6#4 ++ x ++ nn
  | .addImm x nn => 0x7#4 ++ x ++ nn
  | .ldReg x y => 0x8#4 ++ x ++ y ++ 0x0#4
  | .orReg x y => 0x8#4 ++ x ++ y ++ 0x1#4
  | .andReg x y => 0x8#4 ++ x ++ y ++ 0x2#4
  | .xorReg x y => 0x8#4 ++ x ++ y ++ 0x3#4
  | .addReg x y => 0x8#4 ++ x ++ y ++ 0x4#4
  | .sub x y => 0x8#4 ++ x ++ y ++ 0x5#4
  | .shr x y => 0x8#4 ++ x ++ y ++ 0x6#4
  | .subn x y => 0x8#4 ++ x ++ y ++ 0x7#4
  | .shl x y => 0x8#4 ++ x ++ y ++ 0xE#4
  | .sneReg x y => 0x9#4 ++ x ++ y ++ 0x0#4
  | .ldI nnn => 0xA#4 ++ nnn
  | .jpV0 nnn => 0xB#4 ++ nnn
  | .rnd x nn => 0xC#4 ++ x ++ nn
  | .drw x y n => 0xD#4 ++ x ++ y ++ n
  | .skp x => 0xE#4 ++ x ++ 0x9E#8
  | .sknp x => 0xE#4 ++ x ++ 0xA1#8
  | .ldVxDt x => 0xF#4 ++ x ++ 0x07#8
  | .ldVxK x => 0xF#4 ++ x ++ 0x0A#8
  | .ldDtVx x => 0xF#4 ++ x ++ 0x15#8
  | .ldStVx x => 0xF#4 ++ x ++ 0x18#8
  | .addI x => 0xF#4 ++ x ++ 0x1E#8
  | .ldF x => 0xF#4 ++ x ++ 0x29#8
  | .ldB x => 0xF#4 ++ x ++ 0x33#8
  | .stRegs x => 0xF#4 ++ x ++ 0x55#8
  | .ldRegs x => 0xF#4 ++ x ++ 0x65#8

/-- The two bytes of a word as memory holds them, the upper byte first (R41, R60). -/
def wordBytes (op : Word) : List Byte := [op.extractLsb' 8 8, op.extractLsb' 0 8]

/-- The bytes of an instruction in memory order. -/
def encodeBytes (i : Instr) : List Byte := wordBytes (encode i)

/-- What the decoder makes of a byte sequence. A word it does not know is rejected by name, with the word (R66); so is
a sequence too short to hold a word. -/
inductive Decoded where
  | instr (i : Instr) (rest : List Byte)
  | unrecognised (op : Word) (rest : List Byte)
  | truncated (bytes : List Byte)
  deriving DecidableEq, Repr

/-- Decode the first word of a byte sequence, big-endian (R41, R60). Total. -/
def decodeBytes : List Byte → Decoded
  | hi :: lo :: rest =>
    match decode (hi ++ lo) with
    | some i => .instr i rest
    | none => .unrecognised (hi ++ lo) rest
  | short => .truncated short

/-- The word a table number stands for: the table counts bits as R5 does, and the bits above `nbits` are 0. -/
def tableWord (nbits w : Nat) : Word := BitVec.ofNat 16 (w % 2 ^ nbits)

/-- The instruction the decoder reads from the bytes of a table number. -/
def decodeTableWord (nbits w : Nat) : Option Instr :=
  match decodeBytes (wordBytes (tableWord nbits w)) with
  | .instr i _ => some i
  | .unrecognised _ _ | .truncated _ => none

/-- One row of the opcode map (R65): a word is this row's instruction if it equals `value` after AND with `mask`
(R64), and `build` reads the operands from the word's fields. -/
structure OpcodeRow where
  mnemonic : String
  mask : Word
  value : Word
  build : Word → Instr

/-- The word is an example of this row (R64). -/
def OpcodeRow.matchesWord (r : OpcodeRow) (op : Word) : Bool := op &&& r.mask = r.value

/-- Rows with address operand, format A (R62). -/
def rowA (m : String) (v : Word) (f : Addr → Instr) : OpcodeRow :=
  { mnemonic := m, mask := 0xF000, value := v, build := fun op => f (fieldNNN op) }

/-- Rows with register and immediate, format XI (R62). -/
def rowXI (m : String) (v : Word) (f : Nibble → Byte → Instr) : OpcodeRow :=
  { mnemonic := m, mask := 0xF000, value := v, build := fun op => f (fieldX op) (fieldNN op) }

/-- Rows with two registers and a function nibble, format XY (R62). -/
def rowXY (m : String) (v : Word) (f : Nibble → Nibble → Instr) : OpcodeRow :=
  { mnemonic := m, mask := 0xF00F, value := v, build := fun op => f (fieldX op) (fieldY op) }

/-- Rows with one register and a function byte, format XF (R62). -/
def rowXF (m : String) (v : Word) (f : Nibble → Instr) : OpcodeRow :=
  { mnemonic := m, mask := 0xF0FF, value := v, build := fun op => f (fieldX op) }

/-- The opcode map of R65, row by row in its order. -/
def opcodeTable : List OpcodeRow :=
  [{ mnemonic := "CLS", mask := 0xFFFF, value := 0x00E0, build := fun _ => .cls },
   { mnemonic := "RET", mask := 0xFFFF, value := 0x00EE, build := fun _ => .ret },
   rowA "JP" 0x1000 .jp, rowA "CALL" 0x2000 .call,
   rowXI "SE.imm" 0x3000 .seImm, rowXI "SNE.imm" 0x4000 .sneImm, rowXY "SE.reg" 0x5000 .seReg,
   rowXI "LD.imm" 0x6000 .ldImm, rowXI "ADD.imm" 0x7000 .addImm] ++
  [rowXY "LD.reg" 0x8000 .ldReg, rowXY "OR" 0x8001 .orReg, rowXY "AND" 0x8002 .andReg,
   rowXY "XOR" 0x8003 .xorReg, rowXY "ADD.reg" 0x8004 .addReg, rowXY "SUB" 0x8005 .sub,
   rowXY "SHR" 0x8006 .shr, rowXY "SUBN" 0x8007 .subn, rowXY "SHL" 0x800E .shl,
   rowXY "SNE.reg" 0x9000 .sneReg, rowA "LD.I" 0xA000 .ldI, rowA "JP.V0" 0xB000 .jpV0,
   rowXI "RND" 0xC000 .rnd,
   { mnemonic := "DRW", mask := 0xF000, value := 0xD000,
     build := fun op => .drw (fieldX op) (fieldY op) (fieldN op) }] ++
  [rowXF "SKP" 0xE09E .skp, rowXF "SKNP" 0xE0A1 .sknp, rowXF "LD.Vx.DT" 0xF007 .ldVxDt,
   rowXF "LD.Vx.K" 0xF00A .ldVxK, rowXF "LD.DT.Vx" 0xF015 .ldDtVx, rowXF "LD.ST.Vx" 0xF018 .ldStVx,
   rowXF "ADD.I" 0xF01E .addI, rowXF "LD.F" 0xF029 .ldF, rowXF "LD.B" 0xF033 .ldB,
   rowXF "ST.regs" 0xF055 .stRegs, rowXF "LD.regs" 0xF065 .ldRegs]

/-- The mnemonic of an instruction, as R65 and the opcode table spell it. -/
def Instr.mnemonic : Instr → String
  | .cls => "CLS"
  | .ret => "RET"
  | .jp _ => "JP"
  | .call _ => "CALL"
  | .seImm _ _ => "SE.imm"
  | .sneImm _ _ => "SNE.imm"
  | .seReg _ _ => "SE.reg"
  | .ldImm _ _ => "LD.imm"
  | .addImm _ _ => "ADD.imm"
  | .ldReg _ _ => "LD.reg"
  | .orReg _ _ => "OR"
  | .andReg _ _ => "AND"
  | .xorReg _ _ => "XOR"
  | .addReg _ _ => "ADD.reg"
  | .sub _ _ => "SUB"
  | .shr _ _ => "SHR"
  | .subn _ _ => "SUBN"
  | .shl _ _ => "SHL"
  | .sneReg _ _ => "SNE.reg"
  | .ldI _ => "LD.I"
  | .jpV0 _ => "JP.V0"
  | .rnd _ _ => "RND"
  | .drw _ _ _ => "DRW"
  | .skp _ => "SKP"
  | .sknp _ => "SKNP"
  | .ldVxDt _ => "LD.Vx.DT"
  | .ldVxK _ => "LD.Vx.K"
  | .ldDtVx _ => "LD.DT.Vx"
  | .ldStVx _ => "LD.ST.Vx"
  | .addI _ => "ADD.I"
  | .ldF _ => "LD.F"
  | .ldB _ => "LD.B"
  | .stRegs _ => "ST.regs"
  | .ldRegs _ => "LD.regs"

end Sys2Proof
end

