-- ==== Sys2Proof/Config.lean ====
section
/-! DEFINITION. The implementation parameters of spec/00_scope.md R4 at the spec's values, and the two values the
spec leaves open: the font bytes (spec/10_state.md R22) and the bytes of the entropy port (spec/60_exceptions.md
R171). An open value is an opaque constant: nothing can be proved of it. -/

namespace Sys2Proof.Config

/-- `MEM_SIZE`: addresses 0 to 4095 (R4, R40). -/
@[simp] abbrev memSize : Nat := 4096

/-- `FONT_SIZE`: the font occupies bytes 0 to 79 (R4, R22). -/
@[simp] abbrev fontSize : Nat := 80

/-- `GLYPH_BYTES`: five bytes per glyph (R4, R122). -/
@[simp] abbrev glyphBytes : Nat := 5

/-- `ENTRY`: load offset of the ROM and reset value of `pc` (R4). -/
@[simp] abbrev entry : Nat := 512

/-- `ROM_MAX` = 4096 - 512 bytes (R4, R191). -/
@[simp] abbrev romMax : Nat := 3584

/-- `STACK_DEPTH` (R4, R14). -/
abbrev stackDepth : Nat := 12

/-- `FB_W` (R4, R17). -/
@[simp] abbrev fbWidth : Nat := 64

/-- `FB_H` (R4, R17). -/
@[simp] abbrev fbHeight : Nat := 32

/-- The number of framebuffer cells, `FB_W * FB_H` (R17). -/
abbrev fbCells : Nat := 2048

/-- `NKEYS` (R4, R19). -/
abbrev nKeys : Nat := 16

/-- `TICK_HZ`, nominal; no rule depends on it (R4, R166). -/
abbrev tickHz : Nat := 60

/-- The two values of the parameter `SHIFT_MODE` (R4; spec/93_implementation_defined.md U3). -/
inductive ShiftMode where
  | oneBit
  | byVy
  deriving DecidableEq, Repr

/-- `SHIFT_MODE` = `ONE_BIT`, the value the spec fixes (R4, R108, R110). -/
abbrev shiftMode : ShiftMode := .oneBit

/-- `DRAW_N0_ROWS` = 16: the rows `DXY0` draws (R4, R132). -/
@[simp] abbrev drawN0Rows : Nat := 16

/-- `FONT[0..79]`, a parameter: a model "must take `FONT` as a parameter and may assume of it only its size and
position" (R22). The value at index `k < 80` is the reset value of byte `k`; other indices are never used. Log 2. -/
opaque font : Nat → Byte

/-- The parameter's customary default, glyph by glyph (the table of R22). Nothing in the model uses it: a claim
about digit shapes takes `FontIsDefault` as a premise. -/
def defaultFont : List Byte :=
  [0xF0, 0x90, 0x90, 0x90, 0xF0, 0x20, 0x60, 0x20, 0x20, 0x70,
   0xF0, 0x10, 0xF0, 0x80, 0xF0, 0xF0, 0x10, 0xF0, 0x10, 0xF0,
   0x90, 0x90, 0xF0, 0x10, 0x10, 0xF0, 0x80, 0xF0, 0x10, 0xF0,
   0xF0, 0x80, 0xF0, 0x90, 0xF0, 0xF0, 0x10, 0x20, 0x40, 0x40] ++
  [0xF0, 0x90, 0xF0, 0x90, 0xF0, 0xF0, 0x90, 0xF0, 0x10, 0xF0,
   0xF0, 0x90, 0xF0, 0x90, 0x90, 0xE0, 0x90, 0xE0, 0x90, 0xE0,
   0xF0, 0x80, 0x80, 0x80, 0xF0, 0xE0, 0x90, 0x90, 0x90, 0xE0,
   0xF0, 0x80, 0xF0, 0x80, 0xF0, 0xF0, 0x80, 0xF0, 0x80, 0x80]

/-- The parameter `FONT` has its default value (R22). -/
def FontIsDefault : Prop := ∀ k < fontSize, font k = defaultFont.getD k 0

/-- The `n`-th answer of the entropy port, `RngByte()`: a free draw under no law (R111, R171). The step counts the
draws in `State.draws`. Log 3. -/
opaque rngByte : Nat → Byte

end Sys2Proof.Config
end

