-- ==== Sys2Proof/Machine/State.lean ====
section
/-! DEFINITION. The state of the machine (spec/10_state.md R10 to R30), its reset value (R30), and the reasons a step
can stop. -/

namespace Sys2Proof.Machine

/-- `run_state` (R24). -/
inductive RunState where
  /-- the engine advances -/
  | running
  /-- the engine does not advance; external input may still be observed -/
  | paused
  /-- terminal until `Reset` -/
  | halted
  deriving DecidableEq, Repr

/-- `fault_cause` (R25, spec/60_exceptions.md R151). These are the spec's faults: conditions a step RECORDS, in a next
state. -/
inductive FaultCause where
  | noFault
  | fetchOutOfRange
  | fetchMisaligned
  | stackOverflow
  | stackUnderflow
  | dataOutOfRange
  | keyIndexOutOfRange
  deriving DecidableEq, Repr

/-- Main memory (R22, spec/20_memory.md R40) as the cells that differ from the reset contents, by rising address.
What an unlisted address reads as is `Memory.initial`; `Memory.wf` is the canonical form. -/
abbrev Memory := List Host.Cell

/-- The complete state, the tuple of spec/10_state.md, and one field of the model's own (`draws`). -/
structure State where
  /-- main memory (R22) -/
  mem : Memory
  /-- `V[0..15]`; `V[15]` is `VF` (R10, R11) -/
  v : Vector Byte 16
  /-- the index register `I` (R12) -/
  i : Word
  /-- the program counter (R13) -/
  pc : Word
  /-- the call stack entries (R14) -/
  stack : Vector Word Config.stackDepth
  /-- `SP`, the number of valid entries, 0 to 12 (R14, R29) -/
  sp : Fin (Config.stackDepth + 1)
  /-- the delay timer (R15) -/
  dt : Byte
  /-- the sound timer (R16) -/
  st : Byte
  /-- the framebuffer: bit `y * 64 + x` is the cell at column `x`, row `y` (R17) -/
  fb : BitVec Config.fbCells
  /-- the redraw-needed flag (R18) -/
  redraw : Bool
  /-- the keypad latch: bit `k` is 1 while key `k` is down (R19) -/
  key : BitVec Config.nKeys
  /-- `kw_active`, the awaiting-release flag (R20) -/
  kwActive : Bool
  /-- `kw_key`, the pending-key index (R20) -/
  kwKey : Nibble
  /-- `draw_hold` (R21) -/
  drawHold : Bool
  /-- `run_state` (R24) -/
  runState : RunState
  /-- `fault_cause` (R25) -/
  faultCause : FaultCause
  /-- `fault_pc` (R25) -/
  faultPc : Word
  /-- `fault_op` (R25) -/
  faultOp : Word
  /-- `fault_info` (R25) -/
  faultInfo : Word
  /-- the model's own: how many bytes `RND` has drawn from the entropy port (R171); log 3 -/
  draws : Nat
  deriving DecidableEq, Repr

/-- The reasons a step stops with a fault of the MODEL (not of the spec: those are `FaultCause`). -/
inductive Fault where
  /-- Raised by `SHR` and `SHL` only if `Config.shiftMode` were `byVy`, for a shift amount of 8 or more, where
  spec/93_implementation_defined.md U3 says "`fault` (or `refuse`), not a value". Never raised at the spec's
  `ONE_BIT`. Safe: the machine stops where a value is not known. -/
  | shiftAmountUnknown
  deriving DecidableEq, Repr

/-- The reasons the model gives no meaning. -/
inductive Refusal where
  /-- An instruction of the table without a meaning, raised by its arm of `exec`; no arm raises it. Safe. -/
  | notModelled (mnemonic : String)
  /-- A `LoadROM` event that is not directly after `Reset`, raised by `Session.apply` and by no instruction: "a
  model should give no meaning to a `LoadROM` anywhere else" (spec/70_reset_and_hazards.md R191). Safe. -/
  | loadRomNotAfterReset
  deriving DecidableEq, Repr

/-- The machine after `Reset` (R30): memory holds its initial contents, `pc` is 512, the stack is empty, the engine
runs, and everything else is zero. The stack entries are log 4, `draws` is log 3. -/
def State.reset : State where
  mem := []
  v := Vector.replicate 16 0
  i := 0
  pc := BitVec.ofNat 16 Config.entry
  stack := Vector.replicate Config.stackDepth 0
  sp := 0
  dt := 0
  st := 0
  fb := 0
  redraw := false
  key := 0
  kwActive := false
  kwKey := 0
  drawHold := false
  runState := .running
  faultCause := .noFault
  faultPc := 0
  faultOp := 0
  faultInfo := 0
  draws := 0

end Sys2Proof.Machine
end

