-- ==== Sys2Proof/Machine/Ops.lean ====
section
/-! DEFINITION. The named operations over memory and registers, the fetch, taking a fault and the gate of the step.
Every read and write of the state goes through them. -/

namespace Sys2Proof.Machine

/-- The answer of a meaning or a step. -/
abbrev Result := Host.Outcome State Fault Refusal

/-! ### Main memory (spec/20_memory.md) -/

/-- The reset value of a font byte (R22): the parameter `FONT`. -/
def fontByte (k : Nat) : Byte := Config.font k

/-- What an unlisted address reads as: its contents after `Reset`, the font in bytes 0 to 79 and 0 elsewhere (R30,
R44). -/
def Memory.initial (a : Nat) : Byte := if a < Config.fontSize then fontByte a else 0

/-- `MemRead(a, 1)` (R46). Callers check `a <= 4095` first (`accessInside`, `State.fetchable`). -/
def Memory.read : Memory → Nat → Byte
  | [], a => Memory.initial a
  | (b, w) :: rest, a => if a = b then w else Memory.read rest a

/-- Put a cell at the front unless it holds what an unlisted address reads as. -/
def Memory.cons (a : Nat) (w : Byte) (rest : Memory) : Memory :=
  if w = Memory.initial a then rest else (a, w) :: rest

/-- Insert, replace or remove the cell of `a`, keeping the canonical form. -/
def Memory.put : Memory → Nat → Byte → Memory
  | [], a, w => Memory.cons a w []
  | (b, u) :: rest, a, w =>
    if a < b then Memory.cons a w ((b, u) :: rest)
    else if a = b then Memory.cons a w rest
    else (b, u) :: Memory.put rest a w

/-- `MemWrite(a, 1, w)` (R46). There is no byte above 4095 to write (R40); callers check first. -/
def Memory.write (m : Memory) (a : Nat) (w : Byte) : Memory :=
  if a < Config.memSize then Memory.put m a w else m

/-- Single-byte writes at consecutive ascending addresses (R43). -/
def Memory.writeList (m : Memory) (a : Nat) : List Byte → Memory
  | [] => m
  | w :: rest => Memory.writeList (Memory.write m a w) (a + 1) rest

/-- The canonical form from address `lo` on: addresses rise strictly, stay inside memory, and no cell holds what an
unlisted address reads as. -/
def Memory.wfFrom : Nat → Memory → Bool
  | _, [] => true
  | lo, (a, w) :: rest =>
    decide (lo ≤ a) && decide (a < Config.memSize) && decide (w ≠ Memory.initial a) && Memory.wfFrom (a + 1) rest

/-- Memory is in its canonical form. -/
def Memory.wf (m : Memory) : Bool := Memory.wfFrom 0 m

/-- One byte of the state's memory. -/
def State.readByte (s : State) (a : Nat) : Byte := Memory.read s.mem a

/-- Replace memory. -/
def State.setMem (s : State) (m : Memory) : State := { s with mem := m }

/-! ### Registers (spec/10_state.md) -/

/-- `V[x]` (R10). -/
def State.reg (s : State) (x : Nibble) : Byte := s.v[x.toNat]'x.isLt

/-- `V[x] <- b` (R10). -/
def State.setReg (s : State) (x : Nibble) (b : Byte) : State := { s with v := s.v.set x.toNat b x.isLt }

/-- Replace the register file (`LD.regs`). -/
def State.setRegs (s : State) (v : Vector Byte 16) : State := { s with v := v }

/-- `I <- w` (R12). -/
def State.setI (s : State) (w : Word) : State := { s with i := w }

/-- `pc <- w` (R13). -/
def State.setPc (s : State) (w : Word) : State := { s with pc := w }

/-- `pc <- pc + 2`, immediately after the fetch and before dispatch (R13); a skip is a second one (R87). -/
def State.advance (s : State) : State := s.setPc (s.pc + 2)

/-- `DT <- b` (R15). -/
def State.setDt (s : State) (b : Byte) : State := { s with dt := b }

/-- `ST <- b` (R16). -/
def State.setSt (s : State) (b : Byte) : State := { s with st := b }

/-- Replace the framebuffer; the redraw flag is set with it, whether or not a cell changed (R17, R18). -/
def State.show (s : State) (fb : BitVec Config.fbCells) : State := { s with fb := fb, redraw := true }

/-- `draw_hold <- b` (R21). -/
def State.setDrawHold (s : State) (b : Bool) : State := { s with drawHold := b }

/-- The key-wait fields (R20). -/
def State.setKeyWait (s : State) (active : Bool) (k : Nibble) : State := { s with kwActive := active, kwKey := k }

/-- `key[k] = 1` (R19). -/
def State.keyDown (s : State) (k : Nibble) : Bool := s.key.getLsbD k.toNat

/-- `RngByte()`: the byte the entropy port gives for this draw (R171). -/
def State.rngByte (s : State) : Byte := Config.rngByte s.draws

/-- The draw is spent: one draw per execution of `RND` (R111, R171). -/
def State.spendDraw (s : State) : State := { s with draws := s.draws + 1 }

/-! ### The call stack (R14) -/

/-- Push a return address, whole or not at all; `none` when the stack is full (R14, R82). -/
def State.push (s : State) (w : Word) : Option State :=
  if h : s.sp.val < Config.stackDepth then
    some { s with stack := s.stack.set s.sp.val w h, sp := ⟨s.sp.val + 1, Nat.succ_lt_succ h⟩ }
  else none

/-- Pop: the top entry and the state with the depth lowered; `none` when the stack is empty (R14, R80). -/
def State.pop (s : State) : Option (Word × State) :=
  if h : s.sp.val ≠ 0 then
    have inside : s.sp.val - 1 < Config.stackDepth := by have := s.sp.isLt; omega
    some (s.stack[s.sp.val - 1], { s with sp := ⟨s.sp.val - 1, Nat.lt_succ_of_lt inside⟩ })
  else none

/-! ### Taking a fault (spec/60_exceptions.md R150, R159) -/

/-- The code of a cause (R151). -/
def FaultCause.code : FaultCause → BitVec 3
  | .noFault => 0
  | .fetchOutOfRange => 1
  | .fetchMisaligned => 2
  | .stackOverflow => 3
  | .stackUnderflow => 4
  | .dataOutOfRange => 5
  | .keyIndexOutOfRange => 6

/-- The numbers of `run_state` (R24). -/
def RunState.code : RunState → BitVec 2
  | .running => 0
  | .paused => 1
  | .halted => 2

/-- `raise F(info)` in a step that began in `s` (R159): only the four fault registers change, `fault_pc` is the `pc`
the step began with, and the advance by 2 is not committed. There is no return: only `Reset` clears it (R160,
`State.onReset`). -/
def State.raise (s : State) (cause : FaultCause) (op info : Word) : State :=
  { s with faultCause := cause, faultPc := s.pc, faultOp := op, faultInfo := info }

/-! ### The gate and the fetch (R42, R164, R165) -/

/-- The engine is enabled: RUNNING and no fault recorded (R164). -/
def State.enabled (s : State) : Bool := s.runState == .running && s.faultCause == .noFault

/-- A `Cycle` executes an instruction: enabled and not held (R164). -/
def State.open (s : State) : Bool := s.enabled && !s.drawHold

/-- The fetch checks of R42, in the order of R158: the fault a fetch at `pc` raises, if any. -/
def fetchFault (pc : Word) : Option FaultCause :=
  if pc.toNat > 4094 then some .fetchOutOfRange
  else if pc.getLsbD 0 then some .fetchMisaligned
  else none

/-- `MemRead(pc, 2)`: the two bytes at `pc`, the upper one first (R41, R46). -/
def State.fetchWord (s : State) : Word := s.readByte s.pc.toNat ++ s.readByte (s.pc.toNat + 1)

end Sys2Proof.Machine
end

