-- ==== Sys2Proof/Machine/Operands.lean ====
section
/-! DEFINITION. The operand forms: zero-extended addresses (spec/30_encoding.md R63), data accesses through `I`
(spec/42_index_memory.md R123, spec/20_memory.md R45), skips (spec/40_control_flow.md R87), decimal digits, the blocks
of the bulk transfers, sprite coordinates (spec/43_display.md R132), keys and shift amounts. -/

namespace Sys2Proof.Machine

/-- `zext_16(NNN)` (R63). -/
def addrWord (nnn : Addr) : Word := nnn.setWidth 16

/-- `zext_16(b)` for a byte (R6). -/
def byteWord (b : Byte) : Word := b.setWidth 16

/-- All `n` bytes from address `a` on lie inside memory (R45): the last one is at most 4095. Addresses are unbounded
naturals (R46, R123). -/
def accessInside (a n : Nat) : Bool := n == 0 || decide (a + n ≤ Config.memSize)

/-- `max(I, 4096)`, the lowest offending address (R151). -/
def lowestOutside (i : Word) : Word := BitVec.ofNat 16 (max i.toNat Config.memSize)

/-- A data access of `n` bytes at `I` by the instruction with word `op` (R45, R156): checked for all its bytes before
any is moved; if one is outside, the fault is taken and nothing else happens. -/
def State.access (s : State) (op : Word) (n : Nat) (done : State) : Result :=
  if accessInside s.i.toNat n then .next done else .next (s.raise .dataOutOfRange op (lowestOutside s.i))

/-- The next state of a conditional skip (R87): the instruction after the next one if the condition holds. -/
def State.skipIf (s : State) (c : Bool) : State := if c then s.advance.advance else s.advance

/-- The three decimal digits of a byte, hundreds first (R124). -/
def bcdDigits (b : Byte) : List Byte :=
  [BitVec.ofNat 8 (b.toNat / 100), BitVec.ofNat 8 (b.toNat / 10 % 10), BitVec.ofNat 8 (b.toNat % 10)]

/-- The number of registers a bulk transfer moves: `X + 1` (R125, R126). -/
def blockSize (x : Nibble) : Nat := x.toNat + 1

/-- The values of `V[0]` to `V[X]` (R125). -/
def State.regBlock (s : State) (x : Nibble) : List Byte := s.v.toList.take (blockSize x)

/-- The register file after loading `n` registers from address `a` on, ascending from `V[0]` (R126). -/
def loadBlock (m : Memory) (a : Nat) (v : Vector Byte 16) : Nat → Vector Byte 16
  | 0 => v
  | n + 1 => (loadBlock m a v n).setIfInBounds n (Memory.read m (a + n))

/-- `I` after a bulk transfer: advanced by the number of bytes moved (R125, R126). -/
def State.nextBlock (s : State) (x : Nibble) : Word := s.i + BitVec.ofNat 16 (blockSize x)

/-- The start column of a sprite: it wraps (R132). -/
def startColumn (b : Byte) : Nat := b.toNat % Config.fbWidth

/-- The start row of a sprite: it wraps (R132). -/
def startRow (b : Byte) : Nat := b.toNat % Config.fbHeight

/-- The number of rows a sprite has: 0 stands for `DRAW_N0_ROWS` (R63, R132). -/
def spriteRows (n : Nibble) : Nat := if n = 0 then Config.drawN0Rows else n.toNat

/-- The rows drawn: those below the bottom edge are clipped (R132). -/
def drawnRows (n : Nibble) (y0 : Nat) : Nat := min (spriteRows n) (Config.fbHeight - y0)

/-- The key a register value names: 0 to 15, or none (R140, R141). -/
def keyOf (b : Byte) : Option Nibble := if b.toNat ≤ 15 then some (b.setWidth 4) else none

/-- The smallest-numbered key that is down, a priority encoder over the latch (R142). -/
def lowestKey (latch : BitVec Config.nKeys) : Option Nibble :=
  ((List.range Config.nKeys).find? fun k => latch.getLsbD k).map (BitVec.ofNat 4)

/-- The amount a shift instruction shifts by (R108, R110): one bit in the mode the spec fixes; in `BY_VY` mode the
value of `V[Y]` up to 7, and unknown above (spec/93_implementation_defined.md U3). -/
def shiftAmount (mode : Config.ShiftMode) (vy : Byte) : Option Nat :=
  match mode with
  | .oneBit => some 1
  | .byVy => if vy.toNat ≤ 7 then some vy.toNat else none

end Sys2Proof.Machine
end

