-- ==== Sys2Proof/Machine/Flags.lean ====
section
/-! DEFINITION. The flag computations (spec/10_state.md R11, spec/41_load_alu.md R112, R113) and the collision flag of
the rasteriser (spec/43_display.md R132). -/

namespace Sys2Proof.Machine

/-- The value 1 or 0 written to `VF`. -/
def flagByte (c : Bool) : Byte := if c then 1 else 0

/-- The selector of `VF`, register 15 (R11). -/
def vf : Nibble := 0xF

/-- Result first, flag last: with `X = 15` the flag is what remains (R11, R113). -/
def State.setResultFlag (s : State) (x : Nibble) (result : Byte) (flag : Bool) : State :=
  (s.setReg x result).setReg vf (flagByte flag)

/-- `(a + b) mod 256` (R101, R106). -/
def sumByte (a b : Byte) : Byte := BitVec.ofNat 8 ((a.toNat + b.toNat) % 256)

/-- The carry out: the unsigned sum exceeds 255 (R106). -/
def carryOut (a b : Byte) : Bool := decide (a.toNat + b.toNat > 255)

/-- `(a - b) mod 256`, that is `a - b` if `a >= b` and `a - b + 256` otherwise (R107). -/
def diffByte (a b : Byte) : Byte := BitVec.ofNat 8 ((256 + a.toNat - b.toNat) % 256)

/-- "No borrow occurred": the minuend is at least the subtrahend (R107, R109). -/
def noBorrow (a b : Byte) : Bool := decide (b.toNat ≤ a.toNat)

/-- `a div 2^n` (R108). -/
def shiftedRight (a : Byte) (n : Nat) : Byte := BitVec.ofNat 8 (a.toNat / 2 ^ n)

/-- `(a * 2^n) mod 256` (R110). -/
def shiftedLeft (a : Byte) (n : Nat) : Byte := BitVec.ofNat 8 (a.toNat * 2 ^ n % 256)

/-- Bit 0 of the source before the shift (R108). -/
def lowBit (a : Byte) : Bool := a.getLsbD 0

/-- Bit 7 of the source before the shift (R110). -/
def highBit (a : Byte) : Bool := a.getLsbD 7

/-- A framebuffer being drawn on, and whether a cell has gone from set to clear. -/
structure Canvas where
  fb : BitVec Config.fbCells
  collision : Bool
  deriving DecidableEq, Repr

/-- The cell index of column `x`, row `y` (R17). -/
def cellIndex (x y : Nat) : Nat := y * Config.fbWidth + x

/-- Toggle cell `k`; a set cell is about to become clear: collision (R132). -/
def toggleCell (c : Canvas) (k : Nat) : Canvas :=
  { fb := c.fb ^^^ BitVec.twoPow Config.fbCells k, collision := c.collision || c.fb.getLsbD k }

/-- Pixel `c` of a sprite row, counted from the left: bit `7 - c` of its byte (R131). -/
def spritePixel (b : Byte) (c : Nat) : Bool := b.getLsbD (7 - c)

/-- The first `n` pixels of a sprite row with byte `b` at column `x0` of row `y`; columns right of the edge are clipped
(R132). -/
def drawPixels (b : Byte) (x0 y : Nat) (canvas : Canvas) : Nat → Canvas
  | 0 => canvas
  | c + 1 =>
    let before := drawPixels b x0 y canvas c
    if decide (x0 + c ≤ 63) && spritePixel b c then toggleCell before (cellIndex (x0 + c) y) else before

/-- The first `rows` rows of the sprite at address `a`, top row first (R131, R132). -/
def drawSprite (m : Memory) (a x0 y0 : Nat) (canvas : Canvas) : Nat → Canvas
  | 0 => canvas
  | r + 1 => drawPixels (Memory.read m (a + r)) x0 (y0 + r) (drawSprite m a x0 y0 canvas r) 8

end Sys2Proof.Machine
end

