-- ==== Sys2Proof/Machine/Control.lean ====
section
/-! DEFINITION. The control-flow instructions (spec/40_control_flow.md). A meaning gets the state the step began in,
`pc` still at the instruction; `State.advance` is the advance of R87. -/

namespace Sys2Proof.Machine

/-- `RET` (R80): pop into `pc`; an empty stack is `StackUnderflow` (R155). -/
def execRet (s : State) : Result :=
  match s.pop with
  | some (w, t) => .next (t.setPc w)
  | none => .next (s.raise .stackUnderflow (encode .ret) 0)

/-- `JP nnn` (R81). -/
def execJp (nnn : Addr) (s : State) : Result := .next (s.setPc (addrWord nnn))

/-- `CALL nnn` (R82): push the already advanced `pc`; a full stack is `StackOverflow` (R154). -/
def execCall (nnn : Addr) (s : State) : Result :=
  match s.push s.advance.pc with
  | some t => .next (t.setPc (addrWord nnn))
  | none => .next (s.raise .stackOverflow (encode (.call nnn)) (addrWord nnn))

/-- `SE Vx, nn` (R83). -/
def execSeImm (x : Nibble) (nn : Byte) (s : State) : Result := .next (s.skipIf (s.reg x == nn))

/-- `SNE Vx, nn` (R84). -/
def execSneImm (x : Nibble) (nn : Byte) (s : State) : Result := .next (s.skipIf (s.reg x != nn))

/-- `SE Vx, Vy` (R85). -/
def execSeReg (x y : Nibble) (s : State) : Result := .next (s.skipIf (s.reg x == s.reg y))

/-- `SNE Vx, Vy` (R86). -/
def execSneReg (x y : Nibble) (s : State) : Result := .next (s.skipIf (s.reg x != s.reg y))

/-- `JP V0, nnn` (R88): not reduced modulo 4096. -/
def execJpV0 (nnn : Addr) (s : State) : Result := .next (s.setPc (addrWord nnn + byteWord (s.reg 0)))

end Sys2Proof.Machine
end

