-- ==== Sys2Proof/Machine/Display.lean ====
section
/-! DEFINITION. The display instructions (spec/43_display.md). -/

namespace Sys2Proof.Machine

/-- `CLS` (R130): every cell clear, redraw set, no draw hold. -/
def execCls (s : State) : Result := .next (s.advance.show 0)

/-- The canvas a `DRW` with these operands leaves: the drawn rows of the sprite at `I` over the framebuffer (R132). -/
def State.drawn (s : State) (x y n : Nibble) : Canvas :=
  drawSprite s.mem s.i.toNat (startColumn (s.reg x)) (startRow (s.reg y)) { fb := s.fb, collision := false }
    (drawnRows n (startRow (s.reg y)))

/-- `DRW Vx, Vy, n` (R132): only the rows drawn are read (and checked); the collision goes to `VF`, redraw and draw hold
are set. -/
def execDrw (x y n : Nibble) (s : State) : Result :=
  s.access (encode (.drw x y n)) (drawnRows n (startRow (s.reg y)))
    (((s.advance.show (s.drawn x y n).fb).setReg vf (flagByte (s.drawn x y n).collision)).setDrawHold true)

end Sys2Proof.Machine
end

