-- ==== Sys2Proof/Machine/IndexMemory.lean ====
section
/-! DEFINITION. The index-register and memory instructions (spec/42_index_memory.md). -/

namespace Sys2Proof.Machine

/-- `LD I, nnn` (R120). -/
def execLdI (nnn : Addr) (s : State) : Result := .next (s.advance.setI (addrWord nnn))

/-- `ADD I, Vx` (R121): modulo 65536, no flag. -/
def execAddI (x : Nibble) (s : State) : Result := .next (s.advance.setI (s.i + byteWord (s.reg x)))

/-- `LD F, Vx` (R122): 5 times the whole register value, no mask. -/
def execLdF (x : Nibble) (s : State) : Result :=
  .next (s.advance.setI (BitVec.ofNat 16 (Config.glyphBytes * (s.reg x).toNat)))

/-- `LD B, Vx` (R124): three decimal digits at `I`, `I + 1`, `I + 2`. -/
def execLdB (x : Nibble) (s : State) : Result :=
  s.access (encode (.ldB x)) 3 (s.advance.setMem (Memory.writeList s.mem s.i.toNat (bcdDigits (s.reg x))))

/-- `LD [I], Vx` (R125): store `V[0]` to `V[X]` and advance `I`. -/
def execStRegs (x : Nibble) (s : State) : Result :=
  s.access (encode (.stRegs x)) (blockSize x)
    ((s.advance.setMem (Memory.writeList s.mem s.i.toNat (s.regBlock x))).setI (s.nextBlock x))

/-- `LD Vx, [I]` (R126): load `V[0]` to `V[X]` and advance `I`. -/
def execLdRegs (x : Nibble) (s : State) : Result :=
  s.access (encode (.ldRegs x)) (blockSize x)
    ((s.advance.setRegs (loadBlock s.mem s.i.toNat s.v (blockSize x))).setI (s.nextBlock x))

end Sys2Proof.Machine
end

