-- ==== Sys2Proof/Machine/KeypadTimers.lean ====
section
/-! DEFINITION. The keypad and timer instructions (spec/44_keypad_timers.md). -/

namespace Sys2Proof.Machine

/-- A skip on the state of the key that a register names (R140, R141); a value above 15 names no key and is
`KeyIndexOutOfRange` (R157). -/
def State.skipOnKey (s : State) (op : Word) (b : Byte) (down : Bool) : State :=
  match keyOf b with
  | some k => s.skipIf (s.keyDown k == down)
  | none => s.raise .keyIndexOutOfRange op (byteWord b)

/-- `SKP Vx` (R140). -/
def execSkp (x : Nibble) (s : State) : Result := .next (s.skipOnKey (encode (.skp x)) (s.reg x) true)

/-- `SKNP Vx` (R141). -/
def execSknp (x : Nibble) (s : State) : Result := .next (s.skipOnKey (encode (.sknp x)) (s.reg x) false)

/-- `LD Vx, K` (R142, R146): one poll of the key-wait. Waiting leaves `pc` at the instruction; the poll that finds the
captured key released completes. -/
def execLdVxK (x : Nibble) (s : State) : Result :=
  if s.kwActive then
    if s.keyDown s.kwKey then .next s
    else .next ((s.advance.setReg x (s.kwKey.setWidth 8)).setKeyWait false s.kwKey)
  else
    match lowestKey s.key with
    | some k => .next (s.setKeyWait true k)
    | none => .next s

/-- `LD Vx, DT` (R143). -/
def execLdVxDt (x : Nibble) (s : State) : Result := .next (s.advance.setReg x s.dt)

/-- `LD DT, Vx` (R144). -/
def execLdDtVx (x : Nibble) (s : State) : Result := .next (s.advance.setDt (s.reg x))

/-- `LD ST, Vx` (R145). -/
def execLdStVx (x : Nibble) (s : State) : Result := .next (s.advance.setSt (s.reg x))

end Sys2Proof.Machine
end

