-- ==== Sys2Proof/Machine/LoadAlu.lean ====
section
/-! DEFINITION. The load, arithmetic, logic, shift and random instructions (spec/41_load_alu.md). Operands are read
from the state the step began in, before anything is written (R113). -/

namespace Sys2Proof.Machine

/-- `LD Vx, nn` (R100). -/
def execLdImm (x : Nibble) (nn : Byte) (s : State) : Result := .next (s.advance.setReg x nn)

/-- `ADD Vx, nn` (R101): no flag. -/
def execAddImm (x : Nibble) (nn : Byte) (s : State) : Result := .next (s.advance.setReg x (sumByte (s.reg x) nn))

/-- `LD Vx, Vy` (R102). -/
def execLdReg (x y : Nibble) (s : State) : Result := .next (s.advance.setReg x (s.reg y))

/-- `OR Vx, Vy` (R103). -/
def execOr (x y : Nibble) (s : State) : Result := .next (s.advance.setReg x (s.reg x ||| s.reg y))

/-- `AND Vx, Vy` (R104). -/
def execAnd (x y : Nibble) (s : State) : Result := .next (s.advance.setReg x (s.reg x &&& s.reg y))

/-- `XOR Vx, Vy` (R105). -/
def execXor (x y : Nibble) (s : State) : Result := .next (s.advance.setReg x (s.reg x ^^^ s.reg y))

/-- `ADD Vx, Vy` (R106): carry out to `VF`, no carry in. -/
def execAddReg (x y : Nibble) (s : State) : Result :=
  .next (s.advance.setResultFlag x (sumByte (s.reg x) (s.reg y)) (carryOut (s.reg x) (s.reg y)))

/-- `SUB Vx, Vy` (R107): `V[X] - V[Y]`, no borrow to `VF`. -/
def execSub (x y : Nibble) (s : State) : Result :=
  .next (s.advance.setResultFlag x (diffByte (s.reg x) (s.reg y)) (noBorrow (s.reg x) (s.reg y)))

/-- `SUBN Vx, Vy` (R109): `V[Y] - V[X]`, no borrow to `VF`. -/
def execSubn (x y : Nibble) (s : State) : Result :=
  .next (s.advance.setResultFlag x (diffByte (s.reg y) (s.reg x)) (noBorrow (s.reg y) (s.reg x)))

/-- `SHR Vx, Vy` (R108): bit 0 of the source to `VF`. -/
def execShr (x y : Nibble) (s : State) : Result :=
  match shiftAmount Config.shiftMode (s.reg y) with
  | some n => .next (s.advance.setResultFlag x (shiftedRight (s.reg x) n) (lowBit (s.reg x)))
  | none => .fault .shiftAmountUnknown

/-- `SHL Vx, Vy` (R110): bit 7 of the source to `VF`. -/
def execShl (x y : Nibble) (s : State) : Result :=
  match shiftAmount Config.shiftMode (s.reg y) with
  | some n => .next (s.advance.setResultFlag x (shiftedLeft (s.reg x) n) (highBit (s.reg x)))
  | none => .fault .shiftAmountUnknown

/-- `RND Vx, nn` (R111): one draw from the entropy port, under the mask. -/
def execRnd (x : Nibble) (nn : Byte) (s : State) : Result :=
  .next (s.advance.spendDraw.setReg x (s.rngByte &&& nn))

end Sys2Proof.Machine
end

