-- ==== Sys2Proof/Machine/Cycle.lean ====
section
/-! DEFINITION. The `Cycle` event (spec/60_exceptions.md R164, R165) and how an instruction is placed where the next
fetch finds it. -/

namespace Sys2Proof.Machine

/-- The word fetched is performed: its instruction's meaning, or, for an unrecognised word, only the advance by 2
(spec/30_encoding.md R66). -/
def runWord (op : Word) (s : State) : Result :=
  match decode op with
  | some i => exec i s
  | none => .next s.advance

/-- One `Cycle` (R165): a closed gate changes nothing at all (R164); a fetch fault is taken before memory is read
(R152, R153, with `fault_op` 0 and `fault_info` the `pc`); otherwise the word at `pc` is performed. -/
def cycle (s : State) : Result :=
  if s.open then
    match fetchFault s.pc with
    | some cause => .next (s.raise cause 0 s.pc)
    | none => runWord s.fetchWord s
  else .next s

/-- Open the gate and make `pc` fetchable, changing only what stands in the way of a fetch. It changes nothing in
`State.reset`. -/
def State.readyToFetch (s : State) : State :=
  { s with
    runState := .running
    faultCause := .noFault
    drawHold := false
    pc := if fetchFault s.pc = none then s.pc else BitVec.ofNat 16 Config.entry }

/-- Lay the word out at `pc` as memory holds it, upper byte first (R41). -/
def State.placeWord (s : State) (op : Word) : State := s.setMem (Memory.writeList s.mem s.pc.toNat (wordBytes op))

end Sys2Proof.Machine
end

