-- ==== Sys2Proof/Machine/Step.lean ====
section
/-! DEFINITION. One step of the machine is one `Cycle` event (spec/00_scope.md R8). -/

namespace Sys2Proof.Machine

/-- One step. -/
def step (s : State) : Host.Outcome State Fault Refusal := Sys2Proof.Machine.cycle s

/-- The state with an instruction word, numbered as the opcode table numbers it, where the next step fetches it. It
stands for the load of a program (`LoadROM`, spec/70_reset_and_hazards.md R191); log 6. -/
def State.withFetchWord (s : State) (nbits w : Nat) : State := s.readyToFetch.placeWord (tableWord nbits w)

end Sys2Proof.Machine
end

