-- ==== Sys2Proof/Machine/Events.lean ====
section
/-! DEFINITION. The host interface (spec/60_exceptions.md R163 to R172, spec/70_reset_and_hazards.md R190, R191): the
effect of every event, the outputs, and sessions, that is schedules of events. The step of the machine is the event
`cycle` alone; every other event is the host's, in any order it likes (spec/00_scope.md R8). -/

namespace Sys2Proof.Machine

/-! ### Events -/

/-- `Reset` (R190): every state element takes its reset value (spec/10_state.md R30). The count of draws goes on: the
entropy port is not part of the machine (spec/10_state.md R27). -/
def State.onReset (s : State) : State := { State.reset with draws := s.draws }

/-- `LoadROM(bytes)` (R191): the bytes from address 512 on, verbatim, or HALTED with nothing written if there are more
than 3584. -/
def State.onLoadRom (s : State) (bytes : List Byte) : State :=
  if bytes.length > Config.romMax then { s with runState := .halted }
  else s.setMem (Memory.writeList s.mem Config.entry bytes)

/-- `LoadROM(fail)` (R191): HALTED, nothing written. -/
def State.onLoadRomFail (s : State) : State := { s with runState := .halted }

/-- A countdown register after an accepted tick: it stops at 0 (R166). -/
def countDown (b : Byte) : Byte := if b = 0 then 0 else b - 1

/-- `Tick` (R166): accepted only if the engine is enabled (R164). -/
def State.onTick (s : State) : State :=
  if s.enabled then { s with dt := countDown s.dt, st := countDown s.st, drawHold := false } else s

/-- `KeyWrite(k, b)` (R168): accepted in every state. -/
def State.onKeyWrite (s : State) (k : Nibble) (b : Bool) : State :=
  { s with key := if b then s.key ||| BitVec.twoPow Config.nKeys k.toNat
                  else s.key &&& ~~~ BitVec.twoPow Config.nKeys k.toNat }

/-- `Lifecycle(quit)` (R163). -/
def State.onQuit (s : State) : State := { s with runState := .halted }

/-- The lifecycle state after `Lifecycle(toggle_pause)` (R163). -/
def RunState.togglePause : RunState → RunState
  | .running => .paused
  | .paused => .running
  | .halted => .halted

/-- `Lifecycle(toggle_pause)` (R163). -/
def State.onTogglePause (s : State) : State := { s with runState := s.runState.togglePause }

/-- `RedrawAck` (R169). -/
def State.onRedrawAck (s : State) : State := { s with redraw := false }

/-- The events of spec/00_scope.md R8. -/
inductive Event where
  | reset
  | loadRom (bytes : List Byte)
  | loadRomFail
  | cycle
  | tick
  | keyWrite (k : Nibble) (b : Bool)
  | quit
  | togglePause
  | redrawAck
  deriving DecidableEq, Repr

/-! ### Outputs -/

/-- `audio_active` (R167): a function of the current state, whatever the lifecycle or a fault. -/
def State.audioActive (s : State) : Bool := decide (s.st.toNat > 0)

/-- The framebuffer snapshot port (R170): the cells and the redraw flag; reading has no side effect. -/
def State.snapshot (s : State) : BitVec Config.fbCells × Bool := (s.fb, s.redraw)

/-- The fault registers as the host reads them: cause code, pc, word, info (R25, R151). -/
def State.faultRecord (s : State) : BitVec 3 × Word × Word × Word :=
  (s.faultCause.code, s.faultPc, s.faultOp, s.faultInfo)

/-! ### Sessions -/

/-- A machine and whether `LoadROM` has a meaning now, that is whether the event before was `Reset` (R191; log 8). The
flag is the session's bookkeeping of the host's duty, not state of the machine. -/
structure Session where
  machine : State
  mayLoad : Bool
  deriving DecidableEq, Repr

/-- A fresh machine, directly after `Reset` (R190). -/
def Session.start : Session := { machine := State.reset, mayLoad := true }

/-- A `LoadROM` where it has a meaning, and a refusal anywhere else (R191). -/
def Session.load (c : Session) (t : State) : Host.Outcome Session Fault Refusal :=
  if c.mayLoad then .next { machine := t, mayLoad := false } else .refused .loadRomNotAfterReset

/-- One event of the host (R8, R172). -/
def Session.apply (c : Session) : Event → Host.Outcome Session Fault Refusal
  | .reset => .next { machine := c.machine.onReset, mayLoad := true }
  | .loadRom bytes => c.load (c.machine.onLoadRom bytes)
  | .loadRomFail => c.load c.machine.onLoadRomFail
  | .cycle =>
    match step c.machine with
    | .next t => .next { machine := t, mayLoad := false }
    | .fault r => .fault r
    | .refused r => .refused r
  | .tick => .next { machine := c.machine.onTick, mayLoad := false }
  | .keyWrite k b => .next { machine := c.machine.onKeyWrite k b, mayLoad := false }
  | .quit => .next { machine := c.machine.onQuit, mayLoad := false }
  | .togglePause => .next { machine := c.machine.onTogglePause, mayLoad := false }
  | .redrawAck => .next { machine := c.machine.onRedrawAck, mayLoad := false }

/-- A schedule of events, one after the other, stopping where one has no meaning (R7, R172). -/
def Session.run (c : Session) : List Event → Host.Outcome Session Fault Refusal
  | [] => .next c
  | e :: rest =>
    match c.apply e with
    | .next d => d.run rest
    | .fault r => .fault r
    | .refused r => .refused r

/-- `CYCLES_PER_FRAME` = `IPS / TICK_HZ`, of open parameters of the host's schedule (spec/00_scope.md R4). DESIGN CHOICE,
safe: the spec does not say how a quotient that is not whole is rounded, nor what a tick rate of 0 gives; the model takes
the floor, and 0 for a rate of 0. No rule and no other definition reads it. Log 16. -/
def cyclesPerFrame (ips tickHz : Nat) : Nat := ips / tickHz

/-- The nominal schedule of one frame (R172): the cycle budget, an acknowledge if the host renders, one tick. No rule
depends on the host following it. -/
def nominalFrame (cycles : Nat) (render : Bool) : List Event :=
  List.replicate cycles .cycle ++ (if render then [.redrawAck] else []) ++ [.tick]

end Sys2Proof.Machine
end

