-- ==== Sys2Proof/Safety.lean ====
section
/-! DEFINITION. The terms claims are made in: a proper run, quiescence (spec/70_reset_and_hazards.md R203), frames, what
a sprite covers, when an instruction faults, and the invariant of the machine. -/

namespace Sys2Proof.Machine

/-- The state an answer leads to, if it is a next state. -/
def Result.state? : Result → Option State
  | .next t => some t
  | .fault _ | .refused _ => none

/-- The session an answer leads to, if it is a next session. -/
def sessionOf : Host.Outcome Session Fault Refusal → Option Session
  | .next c => some c
  | .fault _ | .refused _ => none

/-! ### Safe runs and the end of a run (R203) -/

/-- No fault has been recorded: "a run that faults has gone wrong" (R203). -/
def State.Proper (s : State) : Prop := s.faultCause = .noFault

/-- The word at `pc` jumps to itself, R203 (c). -/
def State.selfJump (s : State) : Prop :=
  fetchFault s.pc = none ∧ decode s.fetchWord = some (.jp (s.pc.setWidth 12))

/-- The three states that are quiescent for the engine (R203). -/
def State.Quiescent (s : State) : Prop := s.runState = .halted ∨ s.faultCause ≠ .noFault ∨ s.selfJump

/-! ### Frames -/

/-- The state beside the general registers and `pc` that instructions reach, part by part (spec/20_memory.md R54). -/
inductive Part where
  | memory
  | index
  | stack
  | delay
  | sound
  | display
  | hold
  | keyWait
  | draws
  deriving DecidableEq, Repr

/-- A part is as before; memory is compared byte by byte. -/
def Part.same (s t : State) : Part → Prop
  | .memory => ∀ a, t.readByte a = s.readByte a
  | .index => t.i = s.i
  | .stack => t.stack = s.stack ∧ t.sp = s.sp
  | .delay => t.dt = s.dt
  | .sound => t.st = s.st
  | .display => t.fb = s.fb ∧ t.redraw = s.redraw
  | .hold => t.drawHold = s.drawHold
  | .keyWait => t.kwActive = s.kwActive ∧ t.kwKey = s.kwKey
  | .draws => t.draws = s.draws

/-- The four fault registers are as before. -/
def SameFaults (s t : State) : Prop :=
  t.faultCause = s.faultCause ∧ t.faultPc = s.faultPc ∧ t.faultOp = s.faultOp ∧ t.faultInfo = s.faultInfo

/-- What a completed instruction leaves unchanged: every register but those of `regs`, every part but those of `parts`,
and always the keypad latch, the lifecycle state and the fault registers. It says nothing of `pc`. -/
structure Frame (regs : Nibble → Prop) (parts : List Part) (s t : State) : Prop where
  regs : ∀ r, ¬ regs r → t.reg r = s.reg r
  parts : ∀ p, p ∉ parts → p.same s t
  key : t.key = s.key
  runState : t.runState = s.runState
  faults : SameFaults s t

/-- No register. -/
def noReg : Nibble → Prop := fun _ => False

/-- The register `x` alone. -/
def onlyReg (x : Nibble) : Nibble → Prop := fun r => r = x

/-- The register `x` and the flag register. -/
def regAndFlag (x : Nibble) : Nibble → Prop := fun r => r = x ∨ r = 0xF

/-- Every byte outside the `n` bytes from address `a` on reads as before. -/
def SameMemoryOutside (a n : Nat) (s t : State) : Prop := ∀ b, (b < a ∨ a + n ≤ b) → t.readByte b = s.readByte b

/-- The state with a fault recorded and nothing else changed (spec/60_exceptions.md R159). -/
def State.faulted (s : State) (cause : FaultCause) (op info : Word) : State :=
  { s with faultCause := cause, faultPc := s.pc, faultOp := op, faultInfo := info }

/-! ### Where an instruction writes and where it faults -/

/-- The general registers an instruction may write: its destination, and `VF` for the six of spec/10_state.md R11. -/
def destinations (i : Instr) (r : Nibble) : Prop :=
  match i with
  | .ldImm x _ | .addImm x _ | .ldReg x _ | .orReg x _ | .andReg x _ | .xorReg x _ | .rnd x _ | .ldVxDt x
  | .ldVxK x => r = x
  | .addReg x _ | .sub x _ | .subn x _ | .shr x _ | .shl x _ => r = x ∨ r = 0xF
  | .drw _ _ _ => r = 0xF
  | .ldRegs x => r.toNat ≤ x.toNat
  | .cls | .ret | .jp _ | .call _ | .seImm _ _ | .sneImm _ _ | .seReg _ _ | .sneReg _ _ | .ldI _ | .jpV0 _ | .skp _
  | .sknp _ | .ldDtVx _ | .ldStVx _ | .addI _ | .ldF _ | .ldB _ | .stRegs _ => False

/-- The parts an instruction may write (spec/20_memory.md R54, and R12, R18, R20, R21 of spec/10_state.md). -/
def writtenParts : Instr → List Part
  | .cls => [.display]
  | .drw _ _ _ => [.display, .hold]
  | .ret | .call _ => [.stack]
  | .ldI _ | .addI _ | .ldF _ | .ldRegs _ => [.index]
  | .ldB _ => [.memory]
  | .stRegs _ => [.memory, .index]
  | .ldDtVx _ => [.delay]
  | .ldStVx _ => [.sound]
  | .ldVxK _ => [.keyWait]
  | .rnd _ _ => [.draws]
  | .jp _ | .seImm _ _ | .sneImm _ _ | .seReg _ _ | .sneReg _ _ | .jpV0 _ | .ldImm _ _ | .addImm _ _ | .ldReg _ _
  | .orReg _ _ | .andReg _ _ | .xorReg _ _ | .addReg _ _ | .sub _ _ | .subn _ _ | .shr _ _ | .shl _ _ | .skp _
  | .sknp _ | .ldVxDt _ => []

/-- The rows of a sprite that lie on the display (spec/43_display.md R132): 16 for `N = 0`, less what is below the bottom
edge. -/
def visibleRows (n : Nibble) (y0 : Nat) : Nat := min (if n = 0 then 16 else n.toNat) (32 - y0)

/-- The fault of a data access of `n >= 1` bytes at `I` that leaves memory (spec/20_memory.md R45, R151). -/
def dataFault (s : State) (n : Nat) : Option (FaultCause × Word) :=
  if s.i.toNat + n > 4096 then some (.dataOutOfRange, BitVec.ofNat 16 (max s.i.toNat 4096)) else none

/-- The fault an instruction raises in a state, with its `fault_info`: the table of spec/60_exceptions.md R151. -/
def expectedFault (s : State) : Instr → Option (FaultCause × Word)
  | .call nnn => if s.sp.val = 12 then some (.stackOverflow, nnn.setWidth 16) else none
  | .ret => if s.sp.val = 0 then some (.stackUnderflow, 0) else none
  | .drw _ y n => dataFault s (visibleRows n ((s.reg y).toNat % 32))
  | .ldB _ => dataFault s 3
  | .stRegs x | .ldRegs x => dataFault s (x.toNat + 1)
  | .skp x | .sknp x => if 15 < (s.reg x).toNat then some (.keyIndexOutOfRange, (s.reg x).setWidth 16) else none
  | .cls | .jp _ | .seImm _ _ | .sneImm _ _ | .seReg _ _ | .sneReg _ _ | .ldI _ | .jpV0 _ | .ldImm _ _ | .addImm _ _
  | .ldReg _ _ | .orReg _ _ | .andReg _ _ | .xorReg _ _ | .addReg _ _ | .sub _ _ | .subn _ _ | .shr _ _ | .shl _ _
  | .rnd _ _ | .ldVxDt _ | .ldVxK _ | .ldDtVx _ | .ldStVx _ | .addI _ | .ldF _ => none

/-! ### What a sprite covers -/

/-- A visible 1 bit of the first `rows` rows of the sprite at address `a`, drawn from column `x0` and row `y0`, lies over
cell `j` (spec/43_display.md R131, R132). -/
abbrev Covers (m : Memory) (a x0 y0 rows j : Nat) : Prop :=
  ∃ r < rows, ∃ c < 8, x0 + c ≤ 63 ∧ spritePixel (Memory.read m (a + r)) c = true ∧
    j = cellIndex (x0 + c) (y0 + r)

/-- The cell at column `col`, row `row` is under a 1 bit of the sprite a `DRW` with start `(x0, y0)` and `rows` visible
rows draws (R131, R132): the sprite's row `row - y0`, its pixel `col - x0` from the left. -/
def spriteBit (s : State) (x0 y0 rows col row : Nat) : Bool :=
  decide (x0 ≤ col ∧ col < x0 + 8 ∧ y0 ≤ row ∧ row < y0 + rows) &&
    (s.readByte (s.i.toNat + (row - y0))).getLsbD (7 - (col - x0))

/-- The cell at column `col`, row `row` (spec/10_state.md R17). -/
def State.cell (s : State) (col row : Nat) : Bool := s.fb.getLsbD (row * 64 + col)

/-! ### The invariant -/

/-- The fault record is that of one of the causes of spec/60_exceptions.md R151. -/
def State.FaultRecordOk (s : State) : Prop :=
  match s.faultCause with
  | .noFault => s.faultPc = 0 ∧ s.faultOp = 0 ∧ s.faultInfo = 0
  | .fetchOutOfRange => s.faultPc = s.pc ∧ 4094 < s.pc.toNat ∧ s.faultOp = 0 ∧ s.faultInfo = s.pc
  | .fetchMisaligned => s.faultPc = s.pc ∧ s.pc.getLsbD 0 = true ∧ s.faultOp = 0 ∧ s.faultInfo = s.pc
  | .stackOverflow => s.faultPc = s.pc ∧ s.sp.val = 12 ∧ ∃ nnn, decode s.faultOp = some (.call nnn) ∧
      s.faultInfo = nnn.setWidth 16
  | .stackUnderflow => s.faultPc = s.pc ∧ s.sp.val = 0 ∧ s.faultOp = 0x00EE ∧ s.faultInfo = 0
  | .dataOutOfRange => s.faultPc = s.pc ∧ s.faultInfo = BitVec.ofNat 16 (max s.i.toNat 4096)
  | .keyIndexOutOfRange => s.faultPc = s.pc ∧ 15 < s.faultInfo.toNat ∧ s.faultInfo.toNat < 256

/-- The invariant: memory is in canonical form; `pc` is at most 0x10FE (spec/10_state.md R13); every valid stack entry is
an even address of at most 4096 (spec/40_control_flow.md R80); while a key is awaited, the word at `pc` is the key-wait
instruction (spec/44_keypad_timers.md R146); the fault record is consistent. -/
structure State.Inv (s : State) : Prop where
  mem : Memory.wf s.mem = true
  pc : s.pc.toNat ≤ 0x10FE
  stack : ∀ k (h : k < Config.stackDepth), k < s.sp.val → (s.stack[k]).toNat ≤ 4096 ∧ (s.stack[k]).getLsbD 0 = false
  keyWait : s.kwActive = true → fetchFault s.pc = none ∧ ∃ x, decode s.fetchWord = some (.ldVxK x)
  faults : s.FaultRecordOk

/-- The invariant of a session: the machine's, and a `LoadROM` has a meaning only on a machine just reset
(spec/70_reset_and_hazards.md R191). -/
structure Session.Inv (c : Session) : Prop where
  machine : c.machine.Inv
  fresh : c.mayLoad = true → c.machine = { State.reset with draws := c.machine.draws }

end Sys2Proof.Machine
end

