-- ==== Sys2Proof/Certificates/Slice0/Obligations.lean ====
section
/-! DEFINITION. The statements for the provers, from the numbered rules of spec/. A statement that rests on a decision,
a derivation or general knowledge the spec marks as its own says so in its docstring. -/

open Sys2Proof Sys2Proof.Machine

/-! ### Encoding (spec/30_encoding.md) -/

/-- The decoder reads back every instruction the encoder writes, with every operand at every value. The opcode numbers
are the spec's decision D1. -/
def Obligations.DecodeOfEncodeIsTheInstruction : Prop := ∀ i : Instr, decode (encode i) = some i

/-- Every recognised word is the encoding of its instruction, so `fault_op` is the word fetched. Decision D1. -/
def Obligations.EncodeOfDecodeIsTheWord : Prop := ∀ (op : Word) (i : Instr), decode op = some i → encode i = op

/-- The dispatch by family and function agrees with the opcode map of masks and matches on all 65536 words. Decision
D1. -/
def Obligations.DecoderAgreesWithTheOpcodeMap : Prop :=
  ∀ op : Word, decode op = (opcodeTable.find? fun r => r.matchesWord op).map fun r => r.build op

/-- "The 34 patterns are pairwise disjoint": no word matches two rows of the opcode map. Decision D1. -/
def Obligations.OpcodePatternsAreDisjoint : Prop :=
  opcodeTable.Pairwise fun r r' => ∀ op : Word, ¬ (r.matchesWord op = true ∧ r'.matchesWord op = true)

/-- Which words are unrecognised, family by family: the spec's decision D2 (the strict reading). -/
def Obligations.UnrecognisedWordsByFamily : Prop :=
  ∀ op : Word, decode op = none ↔
    (fieldFam op = 0x0 ∧ op ≠ 0x00E0 ∧ op ≠ 0x00EE) ∨
    (fieldFam op = 0x5 ∧ fieldN op ≠ 0) ∨
    (fieldFam op = 0x8 ∧ fieldN op ∈ [0x8#4, 0x9#4, 0xA#4, 0xB#4, 0xC#4, 0xD#4, 0xF#4]) ∨
    (fieldFam op = 0x9 ∧ fieldN op ≠ 0) ∨
    (fieldFam op = 0xE ∧ fieldNN op ≠ 0x9E ∧ fieldNN op ≠ 0xA1) ∨
    (fieldFam op = 0xF ∧
      fieldNN op ∉ [0x07#8, 0x0A#8, 0x15#8, 0x18#8, 0x1E#8, 0x29#8, 0x33#8, 0x55#8, 0x65#8])

/-- Words written out from the spec's patterns stand for their instructions, one for each of the 16 families: decision D1.
That the word `5121` of family 5 is unrecognised is decision D2 (the strict reading). -/
def Obligations.WrittenWordsDecode : Prop :=
  decode 0b0000000011100000#16 = some .cls ∧
  decode 0b0001001100000000#16 = some (.jp 0x300) ∧
  decode 0b0010101010111100#16 = some (.call 0xABC) ∧
  decode 0b0011001100101010#16 = some (.seImm 3 0x2A) ∧
  decode 0b0100001100101010#16 = some (.sneImm 3 0x2A) ∧
  decode 0b0101000100100000#16 = some (.seReg 1 2) ∧
  decode 0b0110101000111110#16 = some (.ldImm 10 0x3E) ∧
  decode 0b0111000011111111#16 = some (.addImm 0 0xFF) ∧
  decode 0b1000000100100101#16 = some (.sub 1 2) ∧
  decode 0b1001000100100000#16 = some (.sneReg 1 2) ∧
  decode 0b1010001100000000#16 = some (.ldI 0x300) ∧
  decode 0b1011001100000000#16 = some (.jpV0 0x300) ∧
  decode 0b1100001100001111#16 = some (.rnd 3 0x0F) ∧
  decode 0b1101000000010011#16 = some (.drw 0 1 3) ∧
  decode 0b1110010010011110#16 = some (.skp 4) ∧
  decode 0b1111001001010101#16 = some (.stRegs 2) ∧
  decode 0b0101000100100001#16 = none

/-- An instruction's bytes in memory order, upper byte first, decode to it and leave the bytes after them. -/
def Obligations.InstructionBytesDecode : Prop :=
  ∀ (i : Instr) (rest : List Byte), decodeBytes (encodeBytes i ++ rest) = .instr i rest

/-! ### The step (spec/60_exceptions.md R150 to R165) -/

/-- With the engine enabled and not held, and `pc` even and at most 4094, a step is `exec` of the instruction the two
bytes at `pc` decode to, and nothing else around it: `exec` itself moves `pc` past the word. The gate rests on decisions
D13 and D15. -/
def Obligations.StepRunsTheDecodedInstruction : Prop :=
  ∀ (s : State) (i : Instr), s.runState = .running → s.faultCause = .noFault → s.drawHold = false →
    s.pc.toNat ≤ 4094 → s.pc.getLsbD 0 = false →
    decode (s.readByte s.pc.toNat ++ s.readByte (s.pc.toNat + 1)) = some i → step s = exec i s

/-- An unrecognised word is a 2-byte instruction that does nothing. -/
def Obligations.UnrecognisedWordIsANoOp : Prop :=
  ∀ s : State, s.runState = .running → s.faultCause = .noFault → s.drawHold = false →
    s.pc.toNat ≤ 4094 → s.pc.getLsbD 0 = false →
    decode (s.readByte s.pc.toNat ++ s.readByte (s.pc.toNat + 1)) = none →
    ∃ t, step s = .next t ∧ t.pc.toNat = s.pc.toNat + 2 ∧ Frame noReg [] s t

/-- A `Cycle` that finds the engine not running, faulted or held changes nothing at all. Decisions D13, D15. -/
def Obligations.ClosedGateChangesNothing : Prop :=
  ∀ s : State, (s.runState ≠ .running ∨ s.faultCause ≠ .noFault ∨ s.drawHold = true) → step s = .next s

/-- The fetch checks, in their order, with the record each leaves and nothing else changed. Decisions D9, D10, D13,
D30. -/
def Obligations.FetchFaultsAreRecorded : Prop :=
  ∀ s : State, s.runState = .running → s.faultCause = .noFault → s.drawHold = false →
    (4094 < s.pc.toNat → step s = .next (s.faulted .fetchOutOfRange 0 s.pc)) ∧
    (s.pc.toNat ≤ 4094 → s.pc.getLsbD 0 = true → step s = .next (s.faulted .fetchMisaligned 0 s.pc))

/-- Every step of every state answers a next state, never a fault or a refusal of the model. It rests on the model's
reading that a fault of the spec is a next state (log entry 15) and on decision D3, `SHIFT_MODE = ONE_BIT` (log entry
10). -/
def Obligations.EveryStepAnswersANextState : Prop := ∀ s : State, ∃ t, step s = .next t

/-- An instruction faults exactly where the table of causes says, and then only the fault registers change, with its own
word as `fault_op`; elsewhere it answers a next state that leaves the fault registers alone. Decisions D7, D8, D11, D12,
D13, D30. -/
def Obligations.InstructionsFaultExactlyAsListed : Prop :=
  ∀ (i : Instr) (s : State),
    (∀ c info, expectedFault s i = some (c, info) → exec i s = .next (s.faulted c (encode i) info)) ∧
    (expectedFault s i = none → ∃ t, exec i s = .next t ∧ SameFaults s t)

/-- No instruction writes storage that R54 and the rules of each element do not give it, nor the keypad latch or the
lifecycle state. -/
def Obligations.StorageIsWrittenOnlyByItsInstructions : Prop :=
  ∀ (i : Instr) (s t : State), exec i s = .next t →
    (∀ p, p ∉ writtenParts i → p.same s t) ∧ t.key = s.key ∧ t.runState = s.runState

/-- A general register changes only as an instruction's destination, and `VF` as a side effect only of the six
instructions that define a flag. -/
def Obligations.RegistersChangeOnlyAsDestinations : Prop :=
  ∀ (i : Instr) (s t : State), exec i s = .next t → ∀ r, ¬ destinations i r → t.reg r = s.reg r

/-! ### Invariants -/

/-- Every step keeps the invariant: canonical memory, `pc` at most 0x10FE, even return addresses of at most 4096, the
key-wait only at its instruction, a consistent fault record. -/
def Obligations.EveryStepKeepsTheInvariant : Prop := ∀ s t : State, s.Inv → step s = .next t → t.Inv

/-- The state after reset meets the invariant. -/
def Obligations.ResetMeetsTheInvariant : Prop := State.reset.Inv

/-- Every schedule of host events keeps the invariant of a session. Where `LoadROM` has a meaning is log entry 8. -/
def Obligations.EverySessionKeepsTheInvariant : Prop :=
  ∀ (events : List Event) (c d : Session), c.Inv → c.run events = .next d → d.Inv

/-- A `LoadROM` that is not directly after `Reset` is refused by name, and every other event has an effect in every
session. Decision D26; log entry 8. -/
def Obligations.OnlyALateLoadIsRefused : Prop :=
  ∀ (c : Session) (e : Event),
    (c.mayLoad = false → (e = .loadRomFail ∨ ∃ bytes, e = .loadRom bytes) →
      c.apply e = .refused .loadRomNotAfterReset) ∧
    (c.mayLoad = true ∨ (e ≠ .loadRomFail ∧ ∀ bytes, e ≠ .loadRom bytes) → ∃ d, c.apply e = .next d)

/-- Once a fault is recorded, every event but `Reset` leaves the four fault registers and `pc` as they are. Decision
D13. -/
def Obligations.FaultStaysUntilReset : Prop :=
  ∀ (c d : Session) (e : Event), c.machine.faultCause ≠ .noFault → e ≠ .reset → c.apply e = .next d →
    SameFaults c.machine d.machine ∧ d.machine.pc = c.machine.pc

/-- Once halted, the machine stays halted under every event but `Reset`. Decision D27. -/
def Obligations.OnlyResetLeavesHalted : Prop :=
  ∀ (c d : Session) (e : Event), c.machine.runState = .halted → e ≠ .reset → c.apply e = .next d →
    d.machine.runState = .halted

/-! ### Control flow (spec/40_control_flow.md) -/

/-- `JP nnn`: `pc <- zext_16(NNN)`, no other state mutated. -/
def Obligations.JumpSetsThePc : Prop :=
  ∀ (nnn : Addr) (s : State), decode (0x1#4 ++ nnn) = some (.jp nnn) ∧
    ∃ t, exec (.jp nnn) s = .next t ∧ t.pc.toNat = nnn.toNat ∧ Frame noReg [] s t

/-- `CALL nnn` pushes the address of the word after it and jumps; with 12 entries in use it is `StackOverflow`. Decision
D7. -/
def Obligations.CallPushesTheReturnAddress : Prop :=
  ∀ (nnn : Addr) (s : State),
    (s.sp.val < 12 → ∃ t, exec (.call nnn) s = .next t ∧ t.pc.toNat = nnn.toNat ∧ t.sp.val = s.sp.val + 1 ∧
      t.stack[s.sp.val]? = some (s.pc + 2) ∧ (∀ k, k ≠ s.sp.val → t.stack[k]? = s.stack[k]?) ∧
      Frame noReg [.stack] s t) ∧
    (s.sp.val = 12 → exec (.call nnn) s = .next (s.faulted .stackOverflow (0x2#4 ++ nnn) (nnn.setWidth 16)))

/-- `RET` takes the entry on top into `pc`; with an empty stack it is `StackUnderflow`. Decision D8. -/
def Obligations.ReturnTakesTheTopEntry : Prop :=
  ∀ s : State,
    (s.sp.val ≠ 0 → ∃ t, exec .ret s = .next t ∧ t.sp.val + 1 = s.sp.val ∧ s.stack[t.sp.val]? = some t.pc ∧
      (∀ k, k < t.sp.val → t.stack[k]? = s.stack[k]?) ∧ Frame noReg [.stack] s t) ∧
    (s.sp.val = 0 → exec .ret s = .next (s.faulted .stackUnderflow 0x00EE 0))

/-- A call and its matching return restore `pc` to the instruction after the call, whatever ran between as long as the
stack is as the call left it. -/
def Obligations.CallThenReturnComesBack : Prop :=
  ∀ (nnn : Addr) (s : State), s.sp.val < 12 →
    ∃ t, exec (.call nnn) s = .next t ∧
      ∀ u : State, u.stack = t.stack → u.sp = t.sp →
        ∃ w, exec .ret u = .next w ∧ w.pc = s.pc + 2 ∧ w.sp = s.sp ∧
          ∀ k, k < s.sp.val → w.stack[k]? = s.stack[k]?

/-- `SE Vx, nn` and `SNE Vx, nn` skip one more word if the register equals, or differs from, the immediate. -/
def Obligations.ImmediateSkips : Prop :=
  ∀ (x : Nibble) (nn : Byte) (s : State),
    decode (0x3#4 ++ x ++ nn) = some (.seImm x nn) ∧ decode (0x4#4 ++ x ++ nn) = some (.sneImm x nn) ∧
    (∃ t, exec (.seImm x nn) s = .next t ∧
      t.pc = s.pc + (if (s.reg x).toNat = nn.toNat then 4 else 2) ∧ Frame noReg [] s t) ∧
    (∃ t, exec (.sneImm x nn) s = .next t ∧
      t.pc = s.pc + (if (s.reg x).toNat = nn.toNat then 2 else 4) ∧ Frame noReg [] s t)

/-- `SE Vx, Vy` and `SNE Vx, Vy` skip one more word if the registers are equal, or differ. -/
def Obligations.RegisterSkips : Prop :=
  ∀ (x y : Nibble) (s : State),
    decode (0x5#4 ++ x ++ y ++ 0x0#4) = some (.seReg x y) ∧ decode (0x9#4 ++ x ++ y ++ 0x0#4) = some (.sneReg x y) ∧
    (∀ n : Nibble, n ≠ 0 → decode (0x5#4 ++ x ++ y ++ n) = none ∧ decode (0x9#4 ++ x ++ y ++ n) = none) ∧
    (∃ t, exec (.seReg x y) s = .next t ∧
      t.pc = s.pc + (if (s.reg x).toNat = (s.reg y).toNat then 4 else 2) ∧ Frame noReg [] s t) ∧
    (∃ t, exec (.sneReg x y) s = .next t ∧
      t.pc = s.pc + (if (s.reg x).toNat = (s.reg y).toNat then 2 else 4) ∧ Frame noReg [] s t)

/-- `JP V0, nnn`: the sum is not reduced modulo 4096 and does not wrap. Decision D9. -/
def Obligations.JumpPlusV0 : Prop :=
  ∀ (nnn : Addr) (s : State),
    ∃ t, exec (.jpV0 nnn) s = .next t ∧ t.pc.toNat = nnn.toNat + (s.reg 0).toNat ∧ t.pc.toNat ≤ 0x10FE ∧
      Frame noReg [] s t

/-! ### Load, arithmetic, logic (spec/41_load_alu.md) -/

/-- `LD Vx, nn` and `LD Vx, Vy`. -/
def Obligations.LoadsSetTheDestination : Prop :=
  ∀ (x y : Nibble) (nn : Byte) (s : State),
    decode (0x6#4 ++ x ++ nn) = some (.ldImm x nn) ∧ decode (0x8#4 ++ x ++ y ++ 0x0#4) = some (.ldReg x y) ∧
    (∃ t, exec (.ldImm x nn) s = .next t ∧ t.reg x = nn ∧ t.pc = s.pc + 2 ∧ Frame (onlyReg x) [] s t) ∧
    (∃ t, exec (.ldReg x y) s = .next t ∧ t.reg x = s.reg y ∧ t.pc = s.pc + 2 ∧ Frame (onlyReg x) [] s t)

/-- `ADD Vx, nn` adds modulo 256 and writes no flag (with `X = 15` the sum goes to `VF` as to any register). -/
def Obligations.AddImmediateWraps : Prop :=
  ∀ (x : Nibble) (nn : Byte) (s : State), decode (0x7#4 ++ x ++ nn) = some (.addImm x nn) ∧
    ∃ t, exec (.addImm x nn) s = .next t ∧ (t.reg x).toNat = ((s.reg x).toNat + nn.toNat) % 256 ∧
      t.pc = s.pc + 2 ∧ Frame (onlyReg x) [] s t

/-- `OR`, `AND`, `XOR` act on each of the 8 bits and write no flag. -/
def Obligations.LogicActsBitwise : Prop :=
  ∀ (x y : Nibble) (s : State),
    decode (0x8#4 ++ x ++ y ++ 0x1#4) = some (.orReg x y) ∧ decode (0x8#4 ++ x ++ y ++ 0x2#4) = some (.andReg x y) ∧
    decode (0x8#4 ++ x ++ y ++ 0x3#4) = some (.xorReg x y) ∧
    (∃ t, exec (.orReg x y) s = .next t ∧
      (∀ k, (t.reg x).getLsbD k = ((s.reg x).getLsbD k || (s.reg y).getLsbD k)) ∧
      t.pc = s.pc + 2 ∧ Frame (onlyReg x) [] s t) ∧
    (∃ t, exec (.andReg x y) s = .next t ∧
      (∀ k, (t.reg x).getLsbD k = ((s.reg x).getLsbD k && (s.reg y).getLsbD k)) ∧
      t.pc = s.pc + 2 ∧ Frame (onlyReg x) [] s t) ∧
    (∃ t, exec (.xorReg x y) s = .next t ∧
      (∀ k, (t.reg x).getLsbD k = ((s.reg x).getLsbD k ^^ (s.reg y).getLsbD k)) ∧
      t.pc = s.pc + 2 ∧ Frame (onlyReg x) [] s t)

/-- `ADD Vx, Vy`: the sum modulo 256, `VF` = 1 iff it exceeds 255; with `X = 15` the flag remains. -/
def Obligations.AddRegistersSetsTheCarry : Prop :=
  ∀ (x y : Nibble) (s : State), decode (0x8#4 ++ x ++ y ++ 0x4#4) = some (.addReg x y) ∧
    ∃ t, exec (.addReg x y) s = .next t ∧
      (x ≠ 0xF → (t.reg x).toNat = ((s.reg x).toNat + (s.reg y).toNat) % 256) ∧
      (t.reg 0xF).toNat = (if (s.reg x).toNat + (s.reg y).toNat > 255 then 1 else 0) ∧
      t.pc = s.pc + 2 ∧ Frame (regAndFlag x) [] s t

/-- `SUB Vx, Vy` and `SUBN Vx, Vy`: the difference modulo 256 in their two directions, `VF` = 1 iff the minuend is at
least the subtrahend; with `X = 15` the flag remains. -/
def Obligations.SubtractionsSetNoBorrow : Prop :=
  ∀ (x y : Nibble) (s : State),
    decode (0x8#4 ++ x ++ y ++ 0x5#4) = some (.sub x y) ∧ decode (0x8#4 ++ x ++ y ++ 0x7#4) = some (.subn x y) ∧
    (∃ t, exec (.sub x y) s = .next t ∧
      (x ≠ 0xF → ((t.reg x).toNat : Int) = ((s.reg x).toNat - (s.reg y).toNat : Int) % 256) ∧
      (t.reg 0xF).toNat = (if (s.reg x).toNat ≥ (s.reg y).toNat then 1 else 0) ∧
      t.pc = s.pc + 2 ∧ Frame (regAndFlag x) [] s t) ∧
    (∃ t, exec (.subn x y) s = .next t ∧
      (x ≠ 0xF → ((t.reg x).toNat : Int) = ((s.reg y).toNat - (s.reg x).toNat : Int) % 256) ∧
      (t.reg 0xF).toNat = (if (s.reg y).toNat ≥ (s.reg x).toNat then 1 else 0) ∧
      t.pc = s.pc + 2 ∧ Frame (regAndFlag x) [] s t)

/-- `SHR` and `SHL` shift `V[X]` by one bit and put the bit shifted out into `VF`, whatever `V[Y]` is. Decision D3
(`SHIFT_MODE = ONE_BIT`). -/
def Obligations.ShiftsMoveOneBit : Prop :=
  ∀ (x y : Nibble) (s : State),
    (∃ t, exec (.shr x y) s = .next t ∧ (x ≠ 0xF → (t.reg x).toNat = (s.reg x).toNat / 2) ∧
      (t.reg 0xF).toNat = (s.reg x).toNat % 2 ∧ t.pc = s.pc + 2 ∧ Frame (regAndFlag x) [] s t) ∧
    (∃ t, exec (.shl x y) s = .next t ∧ (x ≠ 0xF → (t.reg x).toNat = (s.reg x).toNat * 2 % 256) ∧
      (t.reg 0xF).toNat = (s.reg x).toNat / 128 ∧ t.pc = s.pc + 2 ∧ Frame (regAndFlag x) [] s t)

/-- `RND Vx, nn`: one byte drawn from the entropy port, under the mask; no bit outside the mask is set. The drawn byte is
a free value: this holds whatever the port answers. Decision D24; log entry 3. -/
def Obligations.RandomByteIsMasked : Prop :=
  ∀ (x : Nibble) (nn : Byte) (s : State),
    ∃ t, exec (.rnd x nn) s = .next t ∧
      (∀ k, (t.reg x).getLsbD k = ((Config.rngByte s.draws).getLsbD k && nn.getLsbD k)) ∧
      t.draws = s.draws + 1 ∧ t.pc = s.pc + 2 ∧ Frame (onlyReg x) [.draws] s t

/-! ### Index register and memory (spec/42_index_memory.md) -/

/-- `LD I, nnn`. -/
def Obligations.LoadIndex : Prop :=
  ∀ (nnn : Addr) (s : State), decode (0xA#4 ++ nnn) = some (.ldI nnn) ∧
    ∃ t, exec (.ldI nnn) s = .next t ∧ t.i.toNat = nnn.toNat ∧ t.pc = s.pc + 2 ∧ Frame noReg [.index] s t

/-- `ADD I, Vx` wraps modulo 65536 with no flag, and `LD F, Vx` multiplies the whole register by 5. Decision D21. -/
def Obligations.IndexArithmetic : Prop :=
  ∀ (x : Nibble) (s : State),
    (∃ t, exec (.addI x) s = .next t ∧ t.i.toNat = (s.i.toNat + (s.reg x).toNat) % 65536 ∧ t.pc = s.pc + 2 ∧
      Frame noReg [.index] s t) ∧
    (∃ t, exec (.ldF x) s = .next t ∧ t.i.toNat = 5 * (s.reg x).toNat ∧ t.pc = s.pc + 2 ∧
      Frame noReg [.index] s t)

/-- `LD B, Vx` stores the three decimal digits at `I`, `I + 1`, `I + 2` and nothing else; if one of them is outside
memory it is `DataOutOfRange`. Decision D11. -/
def Obligations.DecimalDigitsAreStored : Prop :=
  ∀ (x : Nibble) (s : State), Memory.wf s.mem = true →
    (s.i.toNat + 2 ≤ 4095 → ∃ t, exec (.ldB x) s = .next t ∧
      (t.readByte s.i.toNat).toNat = (s.reg x).toNat / 100 ∧
      (t.readByte (s.i.toNat + 1)).toNat = (s.reg x).toNat / 10 % 10 ∧
      (t.readByte (s.i.toNat + 2)).toNat = (s.reg x).toNat % 10 ∧
      t.pc = s.pc + 2 ∧ SameMemoryOutside s.i.toNat 3 s t ∧ Frame noReg [.memory] s t) ∧
    (4095 < s.i.toNat + 2 → exec (.ldB x) s =
      .next (s.faulted .dataOutOfRange (0xF#4 ++ x ++ 0x33#8) (BitVec.ofNat 16 (max s.i.toNat 4096))))

/-- `LD [I], Vx` stores `V[0]` to `V[X]` from `I` on, nothing else in memory, and advances `I` by `X + 1`; if the last byte
is outside memory it is `DataOutOfRange`. Decision D11. -/
def Obligations.RegistersAreStored : Prop :=
  ∀ (x : Nibble) (s : State), Memory.wf s.mem = true →
    (s.i.toNat + x.toNat ≤ 4095 → ∃ t, exec (.stRegs x) s = .next t ∧
      (∀ r : Nibble, r.toNat ≤ x.toNat → t.readByte (s.i.toNat + r.toNat) = s.reg r) ∧
      t.i.toNat = s.i.toNat + (x.toNat + 1) ∧ t.pc = s.pc + 2 ∧
      SameMemoryOutside s.i.toNat (x.toNat + 1) s t ∧ Frame noReg [.memory, .index] s t) ∧
    (4095 < s.i.toNat + x.toNat → exec (.stRegs x) s =
      .next (s.faulted .dataOutOfRange (0xF#4 ++ x ++ 0x55#8) (BitVec.ofNat 16 (max s.i.toNat 4096))))

/-- `LD Vx, [I]` loads `V[0]` to `V[X]` from `I` on, leaves the registers above and memory alone, and advances `I` by
`X + 1`; if the last byte is outside memory it is `DataOutOfRange`. Decision D11. -/
def Obligations.RegistersAreLoaded : Prop :=
  ∀ (x : Nibble) (s : State),
    (s.i.toNat + x.toNat ≤ 4095 → ∃ t, exec (.ldRegs x) s = .next t ∧
      (∀ r : Nibble, r.toNat ≤ x.toNat → t.reg r = s.readByte (s.i.toNat + r.toNat)) ∧
      t.i.toNat = s.i.toNat + (x.toNat + 1) ∧ t.pc = s.pc + 2 ∧
      Frame (fun r => r.toNat ≤ x.toNat) [.index] s t) ∧
    (4095 < s.i.toNat + x.toNat → exec (.ldRegs x) s =
      .next (s.faulted .dataOutOfRange (0xF#4 ++ x ++ 0x65#8) (BitVec.ofNat 16 (max s.i.toNat 4096))))

/-- The source's round trip: what `LD [I], Vx` stored, `LD Vx, [I]` reads back once `I` is set to the start again, and `I`
ends where the store left it. -/
def Obligations.StoreThenLoadGivesThePattern : Prop :=
  ∀ (x : Nibble) (s : State), Memory.wf s.mem = true → s.i.toNat + x.toNat ≤ 4095 →
    ∃ t, exec (.stRegs x) s = .next t ∧
      ∀ u : State, u.mem = t.mem → u.i = s.i →
        ∃ w, exec (.ldRegs x) u = .next w ∧ w.i = t.i ∧ ∀ r : Nibble, r.toNat ≤ x.toNat → w.reg r = s.reg r

/-- Every byte that `LD [I], Vx` or `LD B, Vx` stores is what a later fetch of its address reads, as the upper or as the
lower byte of the word, as long as memory is as the store left it: so the very next fetch, where `u` is `t`. The spec
derives this from R43, R48 and R26; that the access is in range is decision D11. -/
def Obligations.StoredBytesAreFetched : Prop :=
  ∀ (x : Nibble) (s : State), Memory.wf s.mem = true →
    (s.i.toNat + x.toNat ≤ 4095 → ∃ t, exec (.stRegs x) s = .next t ∧ t.pc = s.pc + 2 ∧
      ∀ u : State, u.mem = t.mem → ∀ r : Nibble, r.toNat ≤ x.toNat →
        (u.pc.toNat = s.i.toNat + r.toNat → u.fetchWord.extractLsb' 8 8 = s.reg r) ∧
        (u.pc.toNat + 1 = s.i.toNat + r.toNat → u.fetchWord.extractLsb' 0 8 = s.reg r)) ∧
    (s.i.toNat + 2 ≤ 4095 → ∃ t, exec (.ldB x) s = .next t ∧ t.pc = s.pc + 2 ∧
      ∀ u : State, u.mem = t.mem → ∀ k : Nat, k < 3 →
        (u.pc.toNat = s.i.toNat + k →
          (u.fetchWord.extractLsb' 8 8).toNat = (s.reg x).toNat / 10 ^ (2 - k) % 10) ∧
        (u.pc.toNat + 1 = s.i.toNat + k →
          (u.fetchWord.extractLsb' 0 8).toNat = (s.reg x).toNat / 10 ^ (2 - k) % 10))

/-! ### Display (spec/43_display.md) -/

/-- `CLS` clears every cell and sets `redraw`; it does not hold the engine. -/
def Obligations.ClearScreen : Prop :=
  decode 0x00E0 = some .cls ∧
  ∀ s : State, ∃ t, exec .cls s = .next t ∧ (∀ k, t.fb.getLsbD k = false) ∧ t.redraw = true ∧ t.pc = s.pc + 2 ∧
    Frame noReg [.display] s t

/-- `DRW Vx, Vy, n`: the start wraps and the continuation clips; each cell under a visible 1 bit is toggled and no other;
`VF` is 1 iff one of those cells was set; `redraw` and `draw_hold` are set; if the last visible row lies outside memory it
is `DataOutOfRange`. Decisions D4, D5, D6, D11, D15, D23. -/
def Obligations.SpriteIsDrawn : Prop :=
  ∀ (x y n : Nibble) (s : State) (x0 y0 rows : Nat),
    x0 = (s.reg x).toNat % 64 → y0 = (s.reg y).toNat % 32 → rows = visibleRows n y0 →
    (s.i.toNat + rows - 1 ≤ 4095 → ∃ t, exec (.drw x y n) s = .next t ∧
      (∀ col row, col < 64 → row < 32 → t.cell col row = (s.cell col row ^^ spriteBit s x0 y0 rows col row)) ∧
      (t.reg 0xF = 0 ∨ t.reg 0xF = 1) ∧
      (t.reg 0xF = 1 ↔
        ∃ col row, col < 64 ∧ row < 32 ∧ spriteBit s x0 y0 rows col row = true ∧ s.cell col row = true) ∧
      t.redraw = true ∧ t.drawHold = true ∧ t.pc = s.pc + 2 ∧ Frame (onlyReg 0xF) [.display, .hold] s t) ∧
    (4095 < s.i.toNat + rows - 1 → exec (.drw x y n) s =
      .next (s.faulted .dataOutOfRange (0xD#4 ++ x ++ y ++ n) (BitVec.ofNat 16 (max s.i.toNat 4096))))

/-- The same sprite drawn twice at the same place, with nothing drawn between, restores the framebuffer; a second draw
over a visible 1 bit of a sprite first drawn on clear cells reports a collision, the first does not. The spec derives this
from R132. -/
def Obligations.DrawingTwiceRestoresTheScreen : Prop :=
  ∀ (x y n : Nibble) (s t u : State), s.faultCause = .noFault → exec (.drw x y n) s = .next t →
    t.faultCause = .noFault →
    u.mem = t.mem → u.i = t.i → u.fb = t.fb → u.reg x = s.reg x → u.reg y = s.reg y →
    ∃ w, exec (.drw x y n) u = .next w ∧ w.fb = s.fb ∧
      (s.fb = 0 → t.reg 0xF = 0 ∧ (w.reg 0xF = 1 ↔ t.fb ≠ 0))

/-- After a `DRW` that completes no instruction executes until a tick: every further step leaves the whole state, and an
accepted tick opens the gate again. Decision D15. -/
def Obligations.DrawHoldsTheEngineUntilATick : Prop :=
  ∀ (x y n : Nibble) (s t : State), s.runState = .running → s.faultCause = .noFault →
    exec (.drw x y n) s = .next t → t.faultCause = .noFault →
    (∀ k, Host.Core.run core k t = .next t) ∧ t.open = false ∧ t.onTick.open = true ∧ t.onTick.pc = s.pc + 2

/-! ### Keypad and timers (spec/44_keypad_timers.md) -/

/-- `SKP` and `SKNP` skip one more word if the key the register names is down, or up; a value above 15 is
`KeyIndexOutOfRange`. Decision D12. -/
def Obligations.KeySkips : Prop :=
  ∀ (x : Nibble) (s : State),
    ((s.reg x).toNat ≤ 15 →
      (∃ t, exec (.skp x) s = .next t ∧ t.pc = s.pc + (if s.key.getLsbD (s.reg x).toNat then 4 else 2) ∧
        Frame noReg [] s t) ∧
      (∃ t, exec (.sknp x) s = .next t ∧ t.pc = s.pc + (if s.key.getLsbD (s.reg x).toNat then 2 else 4) ∧
        Frame noReg [] s t)) ∧
    (15 < (s.reg x).toNat →
      exec (.skp x) s = .next (s.faulted .keyIndexOutOfRange (0xE#4 ++ x ++ 0x9E#8) ((s.reg x).setWidth 16)) ∧
      exec (.sknp x) s = .next (s.faulted .keyIndexOutOfRange (0xE#4 ++ x ++ 0xA1#8) ((s.reg x).setWidth 16)))

/-- The four transitions of the key-wait: idle with no key down, capture of the lowest key down, waiting while it is held,
and completion once it is up. Decision D14. -/
def Obligations.KeyWaitTransitions : Prop :=
  ∀ (x : Nibble) (s : State),
    (s.kwActive = false → (∀ k, k < 16 → s.key.getLsbD k = false) → exec (.ldVxK x) s = .next s) ∧
    (∀ k : Nibble, s.kwActive = false → s.key.getLsbD k.toNat = true →
      (∀ j, j < k.toNat → s.key.getLsbD j = false) →
      ∃ t, exec (.ldVxK x) s = .next t ∧ t.kwActive = true ∧ t.kwKey = k ∧ t.pc = s.pc ∧
        Frame noReg [.keyWait] s t) ∧
    (s.kwActive = true → s.key.getLsbD s.kwKey.toNat = true → exec (.ldVxK x) s = .next s) ∧
    (s.kwActive = true → s.key.getLsbD s.kwKey.toNat = false →
      ∃ t, exec (.ldVxK x) s = .next t ∧ (t.reg x).toNat = s.kwKey.toNat ∧ t.kwActive = false ∧
        t.pc = s.pc + 2 ∧ Frame (onlyReg x) [.keyWait] s t)

/-- `LD Vx, DT`, `LD DT, Vx` and `LD ST, Vx` copy a byte; `audio_active` follows the sound timer at once.
That `audio_active` is the current `ST > 0` is decision D17. -/
def Obligations.TimerCopies : Prop :=
  ∀ (x : Nibble) (s : State),
    decode (0xF#4 ++ x ++ 0x07#8) = some (.ldVxDt x) ∧ decode (0xF#4 ++ x ++ 0x15#8) = some (.ldDtVx x) ∧
    decode (0xF#4 ++ x ++ 0x18#8) = some (.ldStVx x) ∧
    (∃ t, exec (.ldVxDt x) s = .next t ∧ t.reg x = s.dt ∧ t.pc = s.pc + 2 ∧ Frame (onlyReg x) [] s t) ∧
    (∃ t, exec (.ldDtVx x) s = .next t ∧ t.dt = s.reg x ∧ t.pc = s.pc + 2 ∧ Frame noReg [.delay] s t) ∧
    (∃ t, exec (.ldStVx x) s = .next t ∧ t.st = s.reg x ∧ (t.audioActive = true ↔ 0 < (s.reg x).toNat) ∧
      t.pc = s.pc + 2 ∧ Frame noReg [.sound] s t)

/-- No instruction reads the sound timer or the redraw flag: with other values in them, an instruction answers the same
but in those two elements. -/
def Obligations.NoInstructionReadsSoundOrRedraw : Prop :=
  ∀ (i : Instr) (s t : State) (b : Byte) (f : Bool), exec i s = .next t →
    ∃ u, exec i { s with st := b, redraw := f } = .next u ∧ u = { t with st := u.st, redraw := u.redraw }

/-! ### Host events (spec/60_exceptions.md R163 to R172, spec/70_reset_and_hazards.md R190 to R203) -/

/-- `Tick`: each timer one down and not below 0, the hold cleared, nothing else; ignored unless the engine is enabled.
Decisions D15, D16. -/
def Obligations.TickCountsDown : Prop :=
  ∀ s : State,
    (s.runState = .running → s.faultCause = .noFault →
      s.onTick.dt.toNat = s.dt.toNat - 1 ∧ s.onTick.st.toNat = s.st.toNat - 1 ∧ s.onTick.drawHold = false ∧
      s.onTick.pc = s.pc ∧ Frame noReg [.delay, .sound, .hold] s s.onTick) ∧
    (s.runState ≠ .running ∨ s.faultCause ≠ .noFault → s.onTick = s)

/-- A timer set to `v` reads 0 after `v` accepted ticks and not before, and never wraps. Decision D16. -/
def Obligations.TimerReachesZeroAfterItsTicks : Prop :=
  ∀ (s : State) (n : Nat), s.runState = .running → s.faultCause = .noFault →
    (State.onTick^[n] s).dt.toNat = s.dt.toNat - n ∧ (State.onTick^[n] s).st.toNat = s.st.toNat - n ∧
    ((State.onTick^[n] s).dt = 0 ↔ s.dt.toNat ≤ n) ∧ ((State.onTick^[n] s).audioActive = true ↔ n < s.st.toNat)

/-- `KeyWrite(k, b)` is accepted in every state, sets `key[k]` and changes nothing else; the engine never writes the
latch. -/
def Obligations.KeyWriteSetsItsKeyAndNoStepWritesTheLatch : Prop :=
  (∀ (c : Session) (k : Nibble) (b : Bool), ∃ d, c.apply (.keyWrite k b) = .next d ∧
    d.machine.keyDown k = b ∧ (∀ j, j ≠ k → d.machine.keyDown j = c.machine.keyDown j) ∧
    d.machine = { c.machine with key := d.machine.key }) ∧
  (∀ s t : State, step s = .next t → t.key = s.key)

/-- The lifecycle events write `run_state` as their table says and `RedrawAck` clears `redraw`; each changes nothing else,
in every state. Decisions D27, D32. -/
def Obligations.LifecycleAndAcknowledge : Prop :=
  ∀ c : Session,
    (∃ d, c.apply .togglePause = .next d ∧
      (c.machine.runState = .running → d.machine.runState = .paused) ∧
      (c.machine.runState = .paused → d.machine.runState = .running) ∧
      (c.machine.runState = .halted → d.machine.runState = .halted) ∧
      d.machine = { c.machine with runState := d.machine.runState }) ∧
    (∃ d, c.apply .quit = .next d ∧ d.machine = { c.machine with runState := .halted }) ∧
    (∃ d, c.apply .redrawAck = .next d ∧ d.machine = { c.machine with redraw := false })

/-- `LoadROM` directly after `Reset`: at most 3584 bytes go verbatim to 512 on and nowhere else; a longer or unreadable ROM
halts the machine and writes nothing. Decision D26. -/
def Obligations.RomIsLoadedVerbatim : Prop :=
  ∀ (c : Session) (bytes : List Byte), c.mayLoad = true → Memory.wf c.machine.mem = true →
    (bytes.length ≤ 3584 → ∃ d, c.apply (.loadRom bytes) = .next d ∧
      (∀ k, k < bytes.length → d.machine.readByte (512 + k) = bytes.getD k 0) ∧
      SameMemoryOutside 512 bytes.length c.machine d.machine ∧
      d.machine = { c.machine with mem := d.machine.mem } ∧ d.mayLoad = false) ∧
    (3584 < bytes.length → ∃ d, c.apply (.loadRom bytes) = .next d ∧
      d.machine = { c.machine with runState := .halted }) ∧
    (∃ d, c.apply .loadRomFail = .next d ∧ d.machine = { c.machine with runState := .halted })

/-- `Reset` from any state leaves `pc` at 512, the font in bytes 0 to 79 and every other element at the value of R30. The
zeros are the spec's decision D18; the stack entries are not stated. -/
def Obligations.ResetLeavesTheListedValues : Prop :=
  ∀ c : Session, ∃ d, c.apply .reset = .next d ∧
    (∀ a, a < 80 → d.machine.readByte a = Config.font a) ∧ (∀ a, 80 ≤ a → a ≤ 4095 → d.machine.readByte a = 0) ∧
    (∀ r, d.machine.reg r = 0) ∧ d.machine.i = 0 ∧ d.machine.pc = 512 ∧ d.machine.sp.val = 0 ∧ d.machine.dt = 0 ∧
    d.machine.st = 0 ∧ d.machine.fb = 0 ∧ d.machine.redraw = false ∧ d.machine.key = 0 ∧
    d.machine.kwActive = false ∧ d.machine.kwKey = 0 ∧ d.machine.drawHold = false ∧
    d.machine.runState = .running ∧ d.machine.faultRecord = (0, 0, 0, 0)

/-- At a jump to itself every further step leaves the whole state unchanged. The spec derives this from R81, R164 and
R165. -/
def Obligations.SelfJumpIsQuiescent : Prop := ∀ s : State, s.selfJump → step s = .next s

/-- The word an instruction encodes to, placed where the next fetch finds it, is run by the very next step. The placing is
the model's (log entry 6). -/
def Obligations.APlacedInstructionRuns : Prop :=
  ∀ (i : Instr) (s : State), Memory.wf s.mem = true →
    step (s.withFetchWord 16 (encode i).toNat) = exec i (s.withFetchWord 16 (encode i).toNat)

/-- The latch changes only by `KeyWrite` and `Reset`: every other event of the host and every `Cycle` leaves it, and `Reset`
leaves all keys up. That zero is decision D18; that a late `LoadROM` is refused is log entry 8. -/
def Obligations.LatchChangesOnlyByKeyWriteAndReset : Prop :=
  (∀ (c d : Session) (e : Event), (∀ k b, e ≠ .keyWrite k b) → e ≠ .reset → c.apply e = .next d →
    d.machine.key = c.machine.key) ∧
  (∀ c : Session, ∃ d, c.apply .reset = .next d ∧ ∀ k, d.machine.keyDown k = false)
end

