-- ==== Sys2Proof/Laws/Decode.lean ====
section
/-! SUPPORT. The fields of a word put together from its fields (spec/30_encoding.md R61, R62). -/

namespace Sys2Proof.Laws

theorem fieldFam_address (f : Nibble) (nnn : Addr) : fieldFam (f ++ nnn) = f := by
  apply BitVec.eq_of_getLsbD_eq
  intro k hk
  simp only [fieldFam, BitVec.getLsbD_extractLsb', BitVec.getLsbD_append]
  interval_cases k <;> simp

theorem fieldNNN_address (f : Nibble) (nnn : Addr) : fieldNNN (f ++ nnn) = nnn := by
  apply BitVec.eq_of_getLsbD_eq
  intro k hk
  simp only [fieldNNN, BitVec.getLsbD_extractLsb', BitVec.getLsbD_append]
  interval_cases k <;> simp

theorem fieldFam_immediate (f x : Nibble) (nn : Byte) : fieldFam (f ++ x ++ nn) = f := by
  apply BitVec.eq_of_getLsbD_eq
  intro k hk
  simp only [fieldFam, BitVec.getLsbD_extractLsb', BitVec.getLsbD_append]
  interval_cases k <;> simp

theorem fieldX_immediate (f x : Nibble) (nn : Byte) : fieldX (f ++ x ++ nn) = x := by
  apply BitVec.eq_of_getLsbD_eq
  intro k hk
  simp only [fieldX, BitVec.getLsbD_extractLsb', BitVec.getLsbD_append]
  interval_cases k <;> simp

theorem fieldNN_immediate (f x : Nibble) (nn : Byte) : fieldNN (f ++ x ++ nn) = nn := by
  apply BitVec.eq_of_getLsbD_eq
  intro k hk
  simp only [fieldNN, BitVec.getLsbD_extractLsb', BitVec.getLsbD_append]
  interval_cases k <;> simp

theorem fieldFam_registers (f x y n : Nibble) : fieldFam (f ++ x ++ y ++ n) = f := by
  apply BitVec.eq_of_getLsbD_eq
  intro k hk
  simp only [fieldFam, BitVec.getLsbD_extractLsb', BitVec.getLsbD_append]
  interval_cases k <;> simp

theorem fieldX_registers (f x y n : Nibble) : fieldX (f ++ x ++ y ++ n) = x := by
  apply BitVec.eq_of_getLsbD_eq
  intro k hk
  simp only [fieldX, BitVec.getLsbD_extractLsb', BitVec.getLsbD_append]
  interval_cases k <;> simp

theorem fieldY_registers (f x y n : Nibble) : fieldY (f ++ x ++ y ++ n) = y := by
  apply BitVec.eq_of_getLsbD_eq
  intro k hk
  simp only [fieldY, BitVec.getLsbD_extractLsb', BitVec.getLsbD_append]
  interval_cases k <;> simp

theorem fieldN_registers (f x y n : Nibble) : fieldN (f ++ x ++ y ++ n) = n := by
  apply BitVec.eq_of_getLsbD_eq
  intro k hk
  simp only [fieldN, BitVec.getLsbD_extractLsb', BitVec.getLsbD_append]
  interval_cases k <;> simp

/-- Every word is its family and its address operand. -/
theorem word_of_address (op : Word) : fieldFam op ++ fieldNNN op = op := by
  apply BitVec.eq_of_getLsbD_eq
  intro k hk
  simp only [fieldFam, fieldNNN, BitVec.getLsbD_extractLsb', BitVec.getLsbD_append]
  interval_cases k <;> simp

/-- Every word is its family, its register selector and its 8-bit immediate. -/
theorem word_of_immediate (op : Word) : fieldFam op ++ fieldX op ++ fieldNN op = op := by
  apply BitVec.eq_of_getLsbD_eq
  intro k hk
  simp only [fieldFam, fieldX, fieldNN, BitVec.getLsbD_extractLsb', BitVec.getLsbD_append]
  interval_cases k <;> simp

/-- Every word is its four nibbles. -/
theorem word_of_registers (op : Word) : fieldFam op ++ fieldX op ++ fieldY op ++ fieldN op = op := by
  apply BitVec.eq_of_getLsbD_eq
  intro k hk
  simp only [fieldFam, fieldX, fieldY, fieldN, BitVec.getLsbD_extractLsb', BitVec.getLsbD_append]
  interval_cases k <;> simp

end Sys2Proof.Laws
end

