-- ==== Sys2Proof/Laws/Memory.lean ====
section
/-! SUPPORT. The laws of main memory: a read after a write, and that every operation keeps the canonical form. -/

namespace Sys2Proof.Machine

theorem Memory.read_cons (a b : Nat) (w : Byte) (rest : Memory) (h : Memory.read rest a = Memory.initial a) :
    Memory.read (Memory.cons a w rest) b = if b = a then w else Memory.read rest b := by
  unfold Memory.cons
  by_cases hw : w = Memory.initial a <;> by_cases hb : b = a <;> simp_all [Memory.read]

/-- An address below every cell reads as its initial contents. -/
theorem Memory.read_below : ∀ (m : Memory) (lo a : Nat), Memory.wfFrom lo m = true → a < lo →
    Memory.read m a = Memory.initial a
  | [], _, _, _, _ => rfl
  | (b, u) :: rest, lo, a, h, ha => by
    simp only [Memory.wfFrom, Bool.and_eq_true, decide_eq_true_eq] at h
    rw [Memory.read, if_neg (by omega), Memory.read_below rest (b + 1) a h.2 (by omega)]

theorem Memory.read_put : ∀ (m : Memory) (lo a b : Nat) (w : Byte), Memory.wfFrom lo m = true →
    Memory.read (Memory.put m a w) b = if b = a then w else Memory.read m b
  | [], _, a, b, w, _ => by
    rw [Memory.put, Memory.read_cons a b w [] rfl]
  | (c, u) :: rest, lo, a, b, w, h => by
    simp only [Memory.wfFrom, Bool.and_eq_true, decide_eq_true_eq] at h
    rw [Memory.put]
    split
    · next hac =>
      refine Memory.read_cons a b w _ ?_
      rw [Memory.read, if_neg (by omega), Memory.read_below rest (c + 1) a h.2 (by omega)]
    · split
      · next hac hEq =>
        subst hEq
        rw [Memory.read_cons a b w rest (Memory.read_below rest (a + 1) a h.2 (by omega)), Memory.read]
        by_cases hb : b = a <;> simp [hb]
      · next hac hne =>
        rw [Memory.read, Memory.read_put rest (c + 1) a b w h.2, Memory.read]
        by_cases hb : b = c
        · subst hb; simp [Ne.symm hne]
        · simp [hb]

/-- A read after a write: the byte written at its address, the old byte everywhere else. -/
theorem Memory.read_write (m : Memory) (a b : Nat) (w : Byte) (h : Memory.wf m = true) :
    Memory.read (Memory.write m a w) b = if b = a ∧ a < Config.memSize then w else Memory.read m b := by
  unfold Memory.write
  split
  · next ha => rw [Memory.read_put m 0 a b w h]; simp only [ha, and_true]
  · next ha => simp [ha]

theorem Memory.wfFrom_mono : ∀ (m : Memory) (lo lo' : Nat), lo' ≤ lo → Memory.wfFrom lo m = true →
    Memory.wfFrom lo' m = true
  | [], _, _, _, _ => rfl
  | (b, u) :: rest, lo, lo', hle, h => by
    simp only [Memory.wfFrom, Bool.and_eq_true, decide_eq_true_eq] at h ⊢
    exact ⟨⟨⟨by omega, h.1.1.2⟩, h.1.2⟩, h.2⟩

theorem Memory.wfFrom_cons (lo a : Nat) (w : Byte) (rest : Memory) (hlo : lo ≤ a) (ha : a < Config.memSize)
    (h : Memory.wfFrom (a + 1) rest = true) : Memory.wfFrom lo (Memory.cons a w rest) = true := by
  unfold Memory.cons
  split
  · exact Memory.wfFrom_mono rest (a + 1) lo (by omega) h
  · next hw =>
    simp only [Memory.wfFrom, Bool.and_eq_true, decide_eq_true_eq]
    exact ⟨⟨⟨hlo, ha⟩, hw⟩, h⟩

theorem Memory.wfFrom_put : ∀ (m : Memory) (lo a : Nat) (w : Byte), lo ≤ a → a < Config.memSize →
    Memory.wfFrom lo m = true → Memory.wfFrom lo (Memory.put m a w) = true
  | [], lo, a, w, hlo, ha, _ => Memory.wfFrom_cons lo a w [] hlo ha rfl
  | (c, u) :: rest, lo, a, w, hlo, ha, h => by
    have h' := h
    simp only [Memory.wfFrom, Bool.and_eq_true, decide_eq_true_eq] at h'
    rw [Memory.put]
    split
    · next hac =>
      refine Memory.wfFrom_cons lo a w _ hlo ha ?_
      simp only [Memory.wfFrom, Bool.and_eq_true, decide_eq_true_eq]
      exact ⟨⟨⟨by omega, h'.1.1.2⟩, h'.1.2⟩, h'.2⟩
    · split
      · next hEq => subst hEq; exact Memory.wfFrom_cons lo a w rest hlo ha h'.2
      · next hac hne =>
        simp only [Memory.wfFrom, Bool.and_eq_true, decide_eq_true_eq]
        exact ⟨⟨⟨h'.1.1.1, h'.1.1.2⟩, h'.1.2⟩,
          Memory.wfFrom_put rest (c + 1) a w (by omega) ha h'.2⟩

/-- A write keeps the canonical form. -/
theorem Memory.wf_write (m : Memory) (a : Nat) (w : Byte) (h : Memory.wf m = true) :
    Memory.wf (Memory.write m a w) = true := by
  unfold Memory.write
  split
  · next ha => exact Memory.wfFrom_put m 0 a w (Nat.zero_le a) ha h
  · exact h

/-- Writes at consecutive addresses keep the canonical form. -/
theorem Memory.wf_writeList : ∀ (bytes : List Byte) (m : Memory) (a : Nat), Memory.wf m = true →
    Memory.wf (Memory.writeList m a bytes) = true
  | [], _, _, h => h
  | w :: rest, m, a, h => Memory.wf_writeList rest _ (a + 1) (Memory.wf_write m a w h)

/-- A read after consecutive writes inside memory. -/
theorem Memory.read_writeList : ∀ (bytes : List Byte) (m : Memory) (a b : Nat), Memory.wf m = true →
    a + bytes.length ≤ Config.memSize →
    Memory.read (Memory.writeList m a bytes) b =
      if a ≤ b ∧ b < a + bytes.length then bytes.getD (b - a) 0 else Memory.read m b
  | [], m, a, b, _, _ => by
    rw [Memory.writeList, if_neg (by simp)]
  | w :: rest, m, a, b, h, hin => by
    simp only [List.length_cons] at hin ⊢
    rw [Memory.writeList, Memory.read_writeList rest _ (a + 1) b (Memory.wf_write m a w h) (by omega),
      Memory.read_write m a b w h]
    by_cases hb : b = a
    · subst hb
      rw [if_neg (by omega), if_pos ⟨rfl, by omega⟩, if_pos (by omega)]
      simp
    · by_cases hr : a + 1 ≤ b ∧ b < a + 1 + rest.length
      · rw [if_pos hr, if_pos (by omega), show b - a = (b - (a + 1)) + 1 by omega, List.getD_cons_succ]
      · rw [if_neg hr, if_neg (by tauto), if_neg (by omega)]

/-- Two memories in canonical form that read alike at every address are the same list. -/
theorem Memory.ext_wfFrom : ∀ (m n : Memory) (lo : Nat), Memory.wfFrom lo m = true → Memory.wfFrom lo n = true →
    (∀ a, Memory.read m a = Memory.read n a) → m = n
  | [], [], _, _, _, _ => rfl
  | [], (b, u) :: rest, lo, _, hn, h => by
    simp only [Memory.wfFrom, Bool.and_eq_true, decide_eq_true_eq] at hn
    have := h b
    simp only [Memory.read, if_true] at this
    exact absurd this.symm hn.1.2
  | (b, u) :: rest, [], lo, hm, _, h => by
    simp only [Memory.wfFrom, Bool.and_eq_true, decide_eq_true_eq] at hm
    have := h b
    simp only [Memory.read, if_true] at this
    exact absurd this hm.1.2
  | (b, u) :: rest, (c, w) :: tail, lo, hm, hn, h => by
    simp only [Memory.wfFrom, Bool.and_eq_true, decide_eq_true_eq] at hm hn
    have hbc : b = c := by
      rcases Nat.lt_trichotomy b c with hlt | heq | hgt
      · have := h b
        rw [Memory.read, if_pos rfl, Memory.read, if_neg (by omega),
          Memory.read_below tail (c + 1) b hn.2 (by omega)] at this
        exact absurd this hm.1.2
      · exact heq
      · have := h c
        rw [Memory.read, if_neg (by omega), Memory.read_below rest (b + 1) c hm.2 (by omega), Memory.read,
          if_pos rfl] at this
        exact absurd this.symm hn.1.2
    subst hbc
    have huw : u = w := by have := h b; simpa [Memory.read] using this
    subst huw
    rw [Memory.ext_wfFrom rest tail (b + 1) hm.2 hn.2 fun a => ?_]
    by_cases ha : a = b
    · subst ha
      rw [Memory.read_below rest (a + 1) a hm.2 (by omega), Memory.read_below tail (a + 1) a hn.2 (by omega)]
    · have := h a
      rwa [Memory.read, if_neg ha, Memory.read, if_neg ha] at this

theorem reset_memory_wf : Memory.wf State.reset.mem = true := rfl

end Sys2Proof.Machine
end

