-- ==== Sys2Proof/Laws/State.lean ====
section
/-! SUPPORT. Every field after every named update, true by definition, so that no proof unfolds a record update. -/

namespace Sys2Proof.Machine

variable (s : State)

@[simp] theorem State.setMem_mem (m : Memory) : (s.setMem m).mem = m := rfl
@[simp] theorem State.setMem_v (m : Memory) : (s.setMem m).v = s.v := rfl
@[simp] theorem State.setMem_i (m : Memory) : (s.setMem m).i = s.i := rfl
@[simp] theorem State.setMem_pc (m : Memory) : (s.setMem m).pc = s.pc := rfl
@[simp] theorem State.setMem_stack (m : Memory) : (s.setMem m).stack = s.stack := rfl
@[simp] theorem State.setMem_sp (m : Memory) : (s.setMem m).sp = s.sp := rfl
@[simp] theorem State.setMem_dt (m : Memory) : (s.setMem m).dt = s.dt := rfl
@[simp] theorem State.setMem_st (m : Memory) : (s.setMem m).st = s.st := rfl
@[simp] theorem State.setMem_fb (m : Memory) : (s.setMem m).fb = s.fb := rfl
@[simp] theorem State.setMem_redraw (m : Memory) : (s.setMem m).redraw = s.redraw := rfl
@[simp] theorem State.setMem_key (m : Memory) : (s.setMem m).key = s.key := rfl
@[simp] theorem State.setMem_kwActive (m : Memory) : (s.setMem m).kwActive = s.kwActive := rfl
@[simp] theorem State.setMem_kwKey (m : Memory) : (s.setMem m).kwKey = s.kwKey := rfl
@[simp] theorem State.setMem_drawHold (m : Memory) : (s.setMem m).drawHold = s.drawHold := rfl
@[simp] theorem State.setMem_runState (m : Memory) : (s.setMem m).runState = s.runState := rfl
@[simp] theorem State.setMem_faultCause (m : Memory) : (s.setMem m).faultCause = s.faultCause := rfl
@[simp] theorem State.setMem_faultPc (m : Memory) : (s.setMem m).faultPc = s.faultPc := rfl
@[simp] theorem State.setMem_faultOp (m : Memory) : (s.setMem m).faultOp = s.faultOp := rfl
@[simp] theorem State.setMem_faultInfo (m : Memory) : (s.setMem m).faultInfo = s.faultInfo := rfl
@[simp] theorem State.setMem_draws (m : Memory) : (s.setMem m).draws = s.draws := rfl

@[simp] theorem State.setReg_mem (x : Nibble) (b : Byte) : (s.setReg x b).mem = s.mem := rfl
@[simp] theorem State.setReg_v (x : Nibble) (b : Byte) : (s.setReg x b).v = s.v.set x.toNat b x.isLt := rfl
@[simp] theorem State.setReg_i (x : Nibble) (b : Byte) : (s.setReg x b).i = s.i := rfl
@[simp] theorem State.setReg_pc (x : Nibble) (b : Byte) : (s.setReg x b).pc = s.pc := rfl
@[simp] theorem State.setReg_stack (x : Nibble) (b : Byte) : (s.setReg x b).stack = s.stack := rfl
@[simp] theorem State.setReg_sp (x : Nibble) (b : Byte) : (s.setReg x b).sp = s.sp := rfl
@[simp] theorem State.setReg_dt (x : Nibble) (b : Byte) : (s.setReg x b).dt = s.dt := rfl
@[simp] theorem State.setReg_st (x : Nibble) (b : Byte) : (s.setReg x b).st = s.st := rfl
@[simp] theorem State.setReg_fb (x : Nibble) (b : Byte) : (s.setReg x b).fb = s.fb := rfl
@[simp] theorem State.setReg_redraw (x : Nibble) (b : Byte) : (s.setReg x b).redraw = s.redraw := rfl
@[simp] theorem State.setReg_key (x : Nibble) (b : Byte) : (s.setReg x b).key = s.key := rfl
@[simp] theorem State.setReg_kwActive (x : Nibble) (b : Byte) : (s.setReg x b).kwActive = s.kwActive := rfl
@[simp] theorem State.setReg_kwKey (x : Nibble) (b : Byte) : (s.setReg x b).kwKey = s.kwKey := rfl
@[simp] theorem State.setReg_drawHold (x : Nibble) (b : Byte) : (s.setReg x b).drawHold = s.drawHold := rfl
@[simp] theorem State.setReg_runState (x : Nibble) (b : Byte) : (s.setReg x b).runState = s.runState := rfl
@[simp] theorem State.setReg_faultCause (x : Nibble) (b : Byte) : (s.setReg x b).faultCause = s.faultCause := rfl
@[simp] theorem State.setReg_faultPc (x : Nibble) (b : Byte) : (s.setReg x b).faultPc = s.faultPc := rfl
@[simp] theorem State.setReg_faultOp (x : Nibble) (b : Byte) : (s.setReg x b).faultOp = s.faultOp := rfl
@[simp] theorem State.setReg_faultInfo (x : Nibble) (b : Byte) : (s.setReg x b).faultInfo = s.faultInfo := rfl
@[simp] theorem State.setReg_draws (x : Nibble) (b : Byte) : (s.setReg x b).draws = s.draws := rfl

@[simp] theorem State.setRegs_mem (w : Vector Byte 16) : (s.setRegs w).mem = s.mem := rfl
@[simp] theorem State.setRegs_v (w : Vector Byte 16) : (s.setRegs w).v = w := rfl
@[simp] theorem State.setRegs_i (w : Vector Byte 16) : (s.setRegs w).i = s.i := rfl
@[simp] theorem State.setRegs_pc (w : Vector Byte 16) : (s.setRegs w).pc = s.pc := rfl
@[simp] theorem State.setRegs_stack (w : Vector Byte 16) : (s.setRegs w).stack = s.stack := rfl
@[simp] theorem State.setRegs_sp (w : Vector Byte 16) : (s.setRegs w).sp = s.sp := rfl
@[simp] theorem State.setRegs_dt (w : Vector Byte 16) : (s.setRegs w).dt = s.dt := rfl
@[simp] theorem State.setRegs_st (w : Vector Byte 16) : (s.setRegs w).st = s.st := rfl
@[simp] theorem State.setRegs_fb (w : Vector Byte 16) : (s.setRegs w).fb = s.fb := rfl
@[simp] theorem State.setRegs_redraw (w : Vector Byte 16) : (s.setRegs w).redraw = s.redraw := rfl
@[simp] theorem State.setRegs_key (w : Vector Byte 16) : (s.setRegs w).key = s.key := rfl
@[simp] theorem State.setRegs_kwActive (w : Vector Byte 16) : (s.setRegs w).kwActive = s.kwActive := rfl
@[simp] theorem State.setRegs_kwKey (w : Vector Byte 16) : (s.setRegs w).kwKey = s.kwKey := rfl
@[simp] theorem State.setRegs_drawHold (w : Vector Byte 16) : (s.setRegs w).drawHold = s.drawHold := rfl
@[simp] theorem State.setRegs_runState (w : Vector Byte 16) : (s.setRegs w).runState = s.runState := rfl
@[simp] theorem State.setRegs_faultCause (w : Vector Byte 16) : (s.setRegs w).faultCause = s.faultCause := rfl
@[simp] theorem State.setRegs_faultPc (w : Vector Byte 16) : (s.setRegs w).faultPc = s.faultPc := rfl
@[simp] theorem State.setRegs_faultOp (w : Vector Byte 16) : (s.setRegs w).faultOp = s.faultOp := rfl
@[simp] theorem State.setRegs_faultInfo (w : Vector Byte 16) : (s.setRegs w).faultInfo = s.faultInfo := rfl
@[simp] theorem State.setRegs_draws (w : Vector Byte 16) : (s.setRegs w).draws = s.draws := rfl

@[simp] theorem State.setI_mem (w : Word) : (s.setI w).mem = s.mem := rfl
@[simp] theorem State.setI_v (w : Word) : (s.setI w).v = s.v := rfl
@[simp] theorem State.setI_i (w : Word) : (s.setI w).i = w := rfl
@[simp] theorem State.setI_pc (w : Word) : (s.setI w).pc = s.pc := rfl
@[simp] theorem State.setI_stack (w : Word) : (s.setI w).stack = s.stack := rfl
@[simp] theorem State.setI_sp (w : Word) : (s.setI w).sp = s.sp := rfl
@[simp] theorem State.setI_dt (w : Word) : (s.setI w).dt = s.dt := rfl
@[simp] theorem State.setI_st (w : Word) : (s.setI w).st = s.st := rfl
@[simp] theorem State.setI_fb (w : Word) : (s.setI w).fb = s.fb := rfl
@[simp] theorem State.setI_redraw (w : Word) : (s.setI w).redraw = s.redraw := rfl
@[simp] theorem State.setI_key (w : Word) : (s.setI w).key = s.key := rfl
@[simp] theorem State.setI_kwActive (w : Word) : (s.setI w).kwActive = s.kwActive := rfl
@[simp] theorem State.setI_kwKey (w : Word) : (s.setI w).kwKey = s.kwKey := rfl
@[simp] theorem State.setI_drawHold (w : Word) : (s.setI w).drawHold = s.drawHold := rfl
@[simp] theorem State.setI_runState (w : Word) : (s.setI w).runState = s.runState := rfl
@[simp] theorem State.setI_faultCause (w : Word) : (s.setI w).faultCause = s.faultCause := rfl
@[simp] theorem State.setI_faultPc (w : Word) : (s.setI w).faultPc = s.faultPc := rfl
@[simp] theorem State.setI_faultOp (w : Word) : (s.setI w).faultOp = s.faultOp := rfl
@[simp] theorem State.setI_faultInfo (w : Word) : (s.setI w).faultInfo = s.faultInfo := rfl
@[simp] theorem State.setI_draws (w : Word) : (s.setI w).draws = s.draws := rfl

@[simp] theorem State.setPc_mem (w : Word) : (s.setPc w).mem = s.mem := rfl
@[simp] theorem State.setPc_v (w : Word) : (s.setPc w).v = s.v := rfl
@[simp] theorem State.setPc_i (w : Word) : (s.setPc w).i = s.i := rfl
@[simp] theorem State.setPc_pc (w : Word) : (s.setPc w).pc = w := rfl
@[simp] theorem State.setPc_stack (w : Word) : (s.setPc w).stack = s.stack := rfl
@[simp] theorem State.setPc_sp (w : Word) : (s.setPc w).sp = s.sp := rfl
@[simp] theorem State.setPc_dt (w : Word) : (s.setPc w).dt = s.dt := rfl
@[simp] theorem State.setPc_st (w : Word) : (s.setPc w).st = s.st := rfl
@[simp] theorem State.setPc_fb (w : Word) : (s.setPc w).fb = s.fb := rfl
@[simp] theorem State.setPc_redraw (w : Word) : (s.setPc w).redraw = s.redraw := rfl
@[simp] theorem State.setPc_key (w : Word) : (s.setPc w).key = s.key := rfl
@[simp] theorem State.setPc_kwActive (w : Word) : (s.setPc w).kwActive = s.kwActive := rfl
@[simp] theorem State.setPc_kwKey (w : Word) : (s.setPc w).kwKey = s.kwKey := rfl
@[simp] theorem State.setPc_drawHold (w : Word) : (s.setPc w).drawHold = s.drawHold := rfl
@[simp] theorem State.setPc_runState (w : Word) : (s.setPc w).runState = s.runState := rfl
@[simp] theorem State.setPc_faultCause (w : Word) : (s.setPc w).faultCause = s.faultCause := rfl
@[simp] theorem State.setPc_faultPc (w : Word) : (s.setPc w).faultPc = s.faultPc := rfl
@[simp] theorem State.setPc_faultOp (w : Word) : (s.setPc w).faultOp = s.faultOp := rfl
@[simp] theorem State.setPc_faultInfo (w : Word) : (s.setPc w).faultInfo = s.faultInfo := rfl
@[simp] theorem State.setPc_draws (w : Word) : (s.setPc w).draws = s.draws := rfl

@[simp] theorem State.advance_mem : s.advance.mem = s.mem := rfl
@[simp] theorem State.advance_v : s.advance.v = s.v := rfl
@[simp] theorem State.advance_i : s.advance.i = s.i := rfl
@[simp] theorem State.advance_pc : s.advance.pc = s.pc + 2 := rfl
@[simp] theorem State.advance_stack : s.advance.stack = s.stack := rfl
@[simp] theorem State.advance_sp : s.advance.sp = s.sp := rfl
@[simp] theorem State.advance_dt : s.advance.dt = s.dt := rfl
@[simp] theorem State.advance_st : s.advance.st = s.st := rfl
@[simp] theorem State.advance_fb : s.advance.fb = s.fb := rfl
@[simp] theorem State.advance_redraw : s.advance.redraw = s.redraw := rfl
@[simp] theorem State.advance_key : s.advance.key = s.key := rfl
@[simp] theorem State.advance_kwActive : s.advance.kwActive = s.kwActive := rfl
@[simp] theorem State.advance_kwKey : s.advance.kwKey = s.kwKey := rfl
@[simp] theorem State.advance_drawHold : s.advance.drawHold = s.drawHold := rfl
@[simp] theorem State.advance_runState : s.advance.runState = s.runState := rfl
@[simp] theorem State.advance_faultCause : s.advance.faultCause = s.faultCause := rfl
@[simp] theorem State.advance_faultPc : s.advance.faultPc = s.faultPc := rfl
@[simp] theorem State.advance_faultOp : s.advance.faultOp = s.faultOp := rfl
@[simp] theorem State.advance_faultInfo : s.advance.faultInfo = s.faultInfo := rfl
@[simp] theorem State.advance_draws : s.advance.draws = s.draws := rfl

@[simp] theorem State.setDt_mem (b : Byte) : (s.setDt b).mem = s.mem := rfl
@[simp] theorem State.setDt_v (b : Byte) : (s.setDt b).v = s.v := rfl
@[simp] theorem State.setDt_i (b : Byte) : (s.setDt b).i = s.i := rfl
@[simp] theorem State.setDt_pc (b : Byte) : (s.setDt b).pc = s.pc := rfl
@[simp] theorem State.setDt_stack (b : Byte) : (s.setDt b).stack = s.stack := rfl
@[simp] theorem State.setDt_sp (b : Byte) : (s.setDt b).sp = s.sp := rfl
@[simp] theorem State.setDt_dt (b : Byte) : (s.setDt b).dt = b := rfl
@[simp] theorem State.setDt_st (b : Byte) : (s.setDt b).st = s.st := rfl
@[simp] theorem State.setDt_fb (b : Byte) : (s.setDt b).fb = s.fb := rfl
@[simp] theorem State.setDt_redraw (b : Byte) : (s.setDt b).redraw = s.redraw := rfl
@[simp] theorem State.setDt_key (b : Byte) : (s.setDt b).key = s.key := rfl
@[simp] theorem State.setDt_kwActive (b : Byte) : (s.setDt b).kwActive = s.kwActive := rfl
@[simp] theorem State.setDt_kwKey (b : Byte) : (s.setDt b).kwKey = s.kwKey := rfl
@[simp] theorem State.setDt_drawHold (b : Byte) : (s.setDt b).drawHold = s.drawHold := rfl
@[simp] theorem State.setDt_runState (b : Byte) : (s.setDt b).runState = s.runState := rfl
@[simp] theorem State.setDt_faultCause (b : Byte) : (s.setDt b).faultCause = s.faultCause := rfl
@[simp] theorem State.setDt_faultPc (b : Byte) : (s.setDt b).faultPc = s.faultPc := rfl
@[simp] theorem State.setDt_faultOp (b : Byte) : (s.setDt b).faultOp = s.faultOp := rfl
@[simp] theorem State.setDt_faultInfo (b : Byte) : (s.setDt b).faultInfo = s.faultInfo := rfl
@[simp] theorem State.setDt_draws (b : Byte) : (s.setDt b).draws = s.draws := rfl

@[simp] theorem State.setSt_mem (b : Byte) : (s.setSt b).mem = s.mem := rfl
@[simp] theorem State.setSt_v (b : Byte) : (s.setSt b).v = s.v := rfl
@[simp] theorem State.setSt_i (b : Byte) : (s.setSt b).i = s.i := rfl
@[simp] theorem State.setSt_pc (b : Byte) : (s.setSt b).pc = s.pc := rfl
@[simp] theorem State.setSt_stack (b : Byte) : (s.setSt b).stack = s.stack := rfl
@[simp] theorem State.setSt_sp (b : Byte) : (s.setSt b).sp = s.sp := rfl
@[simp] theorem State.setSt_dt (b : Byte) : (s.setSt b).dt = s.dt := rfl
@[simp] theorem State.setSt_st (b : Byte) : (s.setSt b).st = b := rfl
@[simp] theorem State.setSt_fb (b : Byte) : (s.setSt b).fb = s.fb := rfl
@[simp] theorem State.setSt_redraw (b : Byte) : (s.setSt b).redraw = s.redraw := rfl
@[simp] theorem State.setSt_key (b : Byte) : (s.setSt b).key = s.key := rfl
@[simp] theorem State.setSt_kwActive (b : Byte) : (s.setSt b).kwActive = s.kwActive := rfl
@[simp] theorem State.setSt_kwKey (b : Byte) : (s.setSt b).kwKey = s.kwKey := rfl
@[simp] theorem State.setSt_drawHold (b : Byte) : (s.setSt b).drawHold = s.drawHold := rfl
@[simp] theorem State.setSt_runState (b : Byte) : (s.setSt b).runState = s.runState := rfl
@[simp] theorem State.setSt_faultCause (b : Byte) : (s.setSt b).faultCause = s.faultCause := rfl
@[simp] theorem State.setSt_faultPc (b : Byte) : (s.setSt b).faultPc = s.faultPc := rfl
@[simp] theorem State.setSt_faultOp (b : Byte) : (s.setSt b).faultOp = s.faultOp := rfl
@[simp] theorem State.setSt_faultInfo (b : Byte) : (s.setSt b).faultInfo = s.faultInfo := rfl
@[simp] theorem State.setSt_draws (b : Byte) : (s.setSt b).draws = s.draws := rfl

@[simp] theorem State.show_mem (c : BitVec Config.fbCells) : (s.show c).mem = s.mem := rfl
@[simp] theorem State.show_v (c : BitVec Config.fbCells) : (s.show c).v = s.v := rfl
@[simp] theorem State.show_i (c : BitVec Config.fbCells) : (s.show c).i = s.i := rfl
@[simp] theorem State.show_pc (c : BitVec Config.fbCells) : (s.show c).pc = s.pc := rfl
@[simp] theorem State.show_stack (c : BitVec Config.fbCells) : (s.show c).stack = s.stack := rfl
@[simp] theorem State.show_sp (c : BitVec Config.fbCells) : (s.show c).sp = s.sp := rfl
@[simp] theorem State.show_dt (c : BitVec Config.fbCells) : (s.show c).dt = s.dt := rfl
@[simp] theorem State.show_st (c : BitVec Config.fbCells) : (s.show c).st = s.st := rfl
@[simp] theorem State.show_fb (c : BitVec Config.fbCells) : (s.show c).fb = c := rfl
@[simp] theorem State.show_redraw (c : BitVec Config.fbCells) : (s.show c).redraw = true := rfl
@[simp] theorem State.show_key (c : BitVec Config.fbCells) : (s.show c).key = s.key := rfl
@[simp] theorem State.show_kwActive (c : BitVec Config.fbCells) : (s.show c).kwActive = s.kwActive := rfl
@[simp] theorem State.show_kwKey (c : BitVec Config.fbCells) : (s.show c).kwKey = s.kwKey := rfl
@[simp] theorem State.show_drawHold (c : BitVec Config.fbCells) : (s.show c).drawHold = s.drawHold := rfl
@[simp] theorem State.show_runState (c : BitVec Config.fbCells) : (s.show c).runState = s.runState := rfl
@[simp] theorem State.show_faultCause (c : BitVec Config.fbCells) : (s.show c).faultCause = s.faultCause := rfl
@[simp] theorem State.show_faultPc (c : BitVec Config.fbCells) : (s.show c).faultPc = s.faultPc := rfl
@[simp] theorem State.show_faultOp (c : BitVec Config.fbCells) : (s.show c).faultOp = s.faultOp := rfl
@[simp] theorem State.show_faultInfo (c : BitVec Config.fbCells) : (s.show c).faultInfo = s.faultInfo := rfl
@[simp] theorem State.show_draws (c : BitVec Config.fbCells) : (s.show c).draws = s.draws := rfl

@[simp] theorem State.setDrawHold_mem (b : Bool) : (s.setDrawHold b).mem = s.mem := rfl
@[simp] theorem State.setDrawHold_v (b : Bool) : (s.setDrawHold b).v = s.v := rfl
@[simp] theorem State.setDrawHold_i (b : Bool) : (s.setDrawHold b).i = s.i := rfl
@[simp] theorem State.setDrawHold_pc (b : Bool) : (s.setDrawHold b).pc = s.pc := rfl
@[simp] theorem State.setDrawHold_stack (b : Bool) : (s.setDrawHold b).stack = s.stack := rfl
@[simp] theorem State.setDrawHold_sp (b : Bool) : (s.setDrawHold b).sp = s.sp := rfl
@[simp] theorem State.setDrawHold_dt (b : Bool) : (s.setDrawHold b).dt = s.dt := rfl
@[simp] theorem State.setDrawHold_st (b : Bool) : (s.setDrawHold b).st = s.st := rfl
@[simp] theorem State.setDrawHold_fb (b : Bool) : (s.setDrawHold b).fb = s.fb := rfl
@[simp] theorem State.setDrawHold_redraw (b : Bool) : (s.setDrawHold b).redraw = s.redraw := rfl
@[simp] theorem State.setDrawHold_key (b : Bool) : (s.setDrawHold b).key = s.key := rfl
@[simp] theorem State.setDrawHold_kwActive (b : Bool) : (s.setDrawHold b).kwActive = s.kwActive := rfl
@[simp] theorem State.setDrawHold_kwKey (b : Bool) : (s.setDrawHold b).kwKey = s.kwKey := rfl
@[simp] theorem State.setDrawHold_drawHold (b : Bool) : (s.setDrawHold b).drawHold = b := rfl
@[simp] theorem State.setDrawHold_runState (b : Bool) : (s.setDrawHold b).runState = s.runState := rfl
@[simp] theorem State.setDrawHold_faultCause (b : Bool) : (s.setDrawHold b).faultCause = s.faultCause := rfl
@[simp] theorem State.setDrawHold_faultPc (b : Bool) : (s.setDrawHold b).faultPc = s.faultPc := rfl
@[simp] theorem State.setDrawHold_faultOp (b : Bool) : (s.setDrawHold b).faultOp = s.faultOp := rfl
@[simp] theorem State.setDrawHold_faultInfo (b : Bool) : (s.setDrawHold b).faultInfo = s.faultInfo := rfl
@[simp] theorem State.setDrawHold_draws (b : Bool) : (s.setDrawHold b).draws = s.draws := rfl

@[simp] theorem State.setKeyWait_mem (b : Bool) (k : Nibble) : (s.setKeyWait b k).mem = s.mem := rfl
@[simp] theorem State.setKeyWait_v (b : Bool) (k : Nibble) : (s.setKeyWait b k).v = s.v := rfl
@[simp] theorem State.setKeyWait_i (b : Bool) (k : Nibble) : (s.setKeyWait b k).i = s.i := rfl
@[simp] theorem State.setKeyWait_pc (b : Bool) (k : Nibble) : (s.setKeyWait b k).pc = s.pc := rfl
@[simp] theorem State.setKeyWait_stack (b : Bool) (k : Nibble) : (s.setKeyWait b k).stack = s.stack := rfl
@[simp] theorem State.setKeyWait_sp (b : Bool) (k : Nibble) : (s.setKeyWait b k).sp = s.sp := rfl
@[simp] theorem State.setKeyWait_dt (b : Bool) (k : Nibble) : (s.setKeyWait b k).dt = s.dt := rfl
@[simp] theorem State.setKeyWait_st (b : Bool) (k : Nibble) : (s.setKeyWait b k).st = s.st := rfl
@[simp] theorem State.setKeyWait_fb (b : Bool) (k : Nibble) : (s.setKeyWait b k).fb = s.fb := rfl
@[simp] theorem State.setKeyWait_redraw (b : Bool) (k : Nibble) : (s.setKeyWait b k).redraw = s.redraw := rfl
@[simp] theorem State.setKeyWait_key (b : Bool) (k : Nibble) : (s.setKeyWait b k).key = s.key := rfl
@[simp] theorem State.setKeyWait_kwActive (b : Bool) (k : Nibble) : (s.setKeyWait b k).kwActive = b := rfl
@[simp] theorem State.setKeyWait_kwKey (b : Bool) (k : Nibble) : (s.setKeyWait b k).kwKey = k := rfl
@[simp] theorem State.setKeyWait_drawHold (b : Bool) (k : Nibble) : (s.setKeyWait b k).drawHold = s.drawHold := rfl
@[simp] theorem State.setKeyWait_runState (b : Bool) (k : Nibble) : (s.setKeyWait b k).runState = s.runState := rfl
@[simp] theorem State.setKeyWait_faultCause (b : Bool) (k : Nibble) : (s.setKeyWait b k).faultCause = s.faultCause := rfl
@[simp] theorem State.setKeyWait_faultPc (b : Bool) (k : Nibble) : (s.setKeyWait b k).faultPc = s.faultPc := rfl
@[simp] theorem State.setKeyWait_faultOp (b : Bool) (k : Nibble) : (s.setKeyWait b k).faultOp = s.faultOp := rfl
@[simp] theorem State.setKeyWait_faultInfo (b : Bool) (k : Nibble) : (s.setKeyWait b k).faultInfo = s.faultInfo := rfl
@[simp] theorem State.setKeyWait_draws (b : Bool) (k : Nibble) : (s.setKeyWait b k).draws = s.draws := rfl

@[simp] theorem State.spendDraw_mem : s.spendDraw.mem = s.mem := rfl
@[simp] theorem State.spendDraw_v : s.spendDraw.v = s.v := rfl
@[simp] theorem State.spendDraw_i : s.spendDraw.i = s.i := rfl
@[simp] theorem State.spendDraw_pc : s.spendDraw.pc = s.pc := rfl
@[simp] theorem State.spendDraw_stack : s.spendDraw.stack = s.stack := rfl
@[simp] theorem State.spendDraw_sp : s.spendDraw.sp = s.sp := rfl
@[simp] theorem State.spendDraw_dt : s.spendDraw.dt = s.dt := rfl
@[simp] theorem State.spendDraw_st : s.spendDraw.st = s.st := rfl
@[simp] theorem State.spendDraw_fb : s.spendDraw.fb = s.fb := rfl
@[simp] theorem State.spendDraw_redraw : s.spendDraw.redraw = s.redraw := rfl
@[simp] theorem State.spendDraw_key : s.spendDraw.key = s.key := rfl
@[simp] theorem State.spendDraw_kwActive : s.spendDraw.kwActive = s.kwActive := rfl
@[simp] theorem State.spendDraw_kwKey : s.spendDraw.kwKey = s.kwKey := rfl
@[simp] theorem State.spendDraw_drawHold : s.spendDraw.drawHold = s.drawHold := rfl
@[simp] theorem State.spendDraw_runState : s.spendDraw.runState = s.runState := rfl
@[simp] theorem State.spendDraw_faultCause : s.spendDraw.faultCause = s.faultCause := rfl
@[simp] theorem State.spendDraw_faultPc : s.spendDraw.faultPc = s.faultPc := rfl
@[simp] theorem State.spendDraw_faultOp : s.spendDraw.faultOp = s.faultOp := rfl
@[simp] theorem State.spendDraw_faultInfo : s.spendDraw.faultInfo = s.faultInfo := rfl
@[simp] theorem State.spendDraw_draws : s.spendDraw.draws = s.draws + 1 := rfl

@[simp] theorem State.raise_mem (c : FaultCause) (o n : Word) : (s.raise c o n).mem = s.mem := rfl
@[simp] theorem State.raise_v (c : FaultCause) (o n : Word) : (s.raise c o n).v = s.v := rfl
@[simp] theorem State.raise_i (c : FaultCause) (o n : Word) : (s.raise c o n).i = s.i := rfl
@[simp] theorem State.raise_pc (c : FaultCause) (o n : Word) : (s.raise c o n).pc = s.pc := rfl
@[simp] theorem State.raise_stack (c : FaultCause) (o n : Word) : (s.raise c o n).stack = s.stack := rfl
@[simp] theorem State.raise_sp (c : FaultCause) (o n : Word) : (s.raise c o n).sp = s.sp := rfl
@[simp] theorem State.raise_dt (c : FaultCause) (o n : Word) : (s.raise c o n).dt = s.dt := rfl
@[simp] theorem State.raise_st (c : FaultCause) (o n : Word) : (s.raise c o n).st = s.st := rfl
@[simp] theorem State.raise_fb (c : FaultCause) (o n : Word) : (s.raise c o n).fb = s.fb := rfl
@[simp] theorem State.raise_redraw (c : FaultCause) (o n : Word) : (s.raise c o n).redraw = s.redraw := rfl
@[simp] theorem State.raise_key (c : FaultCause) (o n : Word) : (s.raise c o n).key = s.key := rfl
@[simp] theorem State.raise_kwActive (c : FaultCause) (o n : Word) : (s.raise c o n).kwActive = s.kwActive := rfl
@[simp] theorem State.raise_kwKey (c : FaultCause) (o n : Word) : (s.raise c o n).kwKey = s.kwKey := rfl
@[simp] theorem State.raise_drawHold (c : FaultCause) (o n : Word) : (s.raise c o n).drawHold = s.drawHold := rfl
@[simp] theorem State.raise_runState (c : FaultCause) (o n : Word) : (s.raise c o n).runState = s.runState := rfl
@[simp] theorem State.raise_faultCause (c : FaultCause) (o n : Word) : (s.raise c o n).faultCause = c := rfl
@[simp] theorem State.raise_faultPc (c : FaultCause) (o n : Word) : (s.raise c o n).faultPc = s.pc := rfl
@[simp] theorem State.raise_faultOp (c : FaultCause) (o n : Word) : (s.raise c o n).faultOp = o := rfl
@[simp] theorem State.raise_faultInfo (c : FaultCause) (o n : Word) : (s.raise c o n).faultInfo = n := rfl
@[simp] theorem State.raise_draws (c : FaultCause) (o n : Word) : (s.raise c o n).draws = s.draws := rfl

/-! ### Reading a register or a byte after an update -/

theorem State.reg_setReg (x r : Nibble) (b : Byte) : (s.setReg x b).reg r = if r = x then b else s.reg r := by
  simp only [State.reg, State.setReg_v, Vector.getElem_set, BitVec.toNat_inj, eq_comm (a := x)]

@[simp] theorem State.reg_setReg_same (x : Nibble) (b : Byte) : (s.setReg x b).reg x = b := by
  simp [State.reg_setReg]

@[simp] theorem State.setMem_reg (m : Memory) (r : Nibble) : (s.setMem m).reg r = s.reg r := rfl
@[simp] theorem State.setI_reg (w : Word) (r : Nibble) : (s.setI w).reg r = s.reg r := rfl
@[simp] theorem State.setPc_reg (w : Word) (r : Nibble) : (s.setPc w).reg r = s.reg r := rfl
@[simp] theorem State.advance_reg (r : Nibble) : s.advance.reg r = s.reg r := rfl
@[simp] theorem State.setDt_reg (b : Byte) (r : Nibble) : (s.setDt b).reg r = s.reg r := rfl
@[simp] theorem State.setSt_reg (b : Byte) (r : Nibble) : (s.setSt b).reg r = s.reg r := rfl
@[simp] theorem State.show_reg (c : BitVec Config.fbCells) (r : Nibble) : (s.show c).reg r = s.reg r := rfl
@[simp] theorem State.setDrawHold_reg (b : Bool) (r : Nibble) : (s.setDrawHold b).reg r = s.reg r := rfl
@[simp] theorem State.setKeyWait_reg (b : Bool) (k : Nibble) (r : Nibble) : (s.setKeyWait b k).reg r = s.reg r := rfl
@[simp] theorem State.spendDraw_reg (r : Nibble) : s.spendDraw.reg r = s.reg r := rfl
@[simp] theorem State.raise_reg (c : FaultCause) (o n : Word) (r : Nibble) : (s.raise c o n).reg r = s.reg r := rfl
@[simp] theorem State.setReg_readByte (x : Nibble) (b : Byte) (q : Nat) : (s.setReg x b).readByte q = s.readByte q := rfl
@[simp] theorem State.setRegs_readByte (w : Vector Byte 16) (q : Nat) : (s.setRegs w).readByte q = s.readByte q := rfl
@[simp] theorem State.setI_readByte (w : Word) (q : Nat) : (s.setI w).readByte q = s.readByte q := rfl
@[simp] theorem State.setPc_readByte (w : Word) (q : Nat) : (s.setPc w).readByte q = s.readByte q := rfl
@[simp] theorem State.advance_readByte (q : Nat) : s.advance.readByte q = s.readByte q := rfl
@[simp] theorem State.setDt_readByte (b : Byte) (q : Nat) : (s.setDt b).readByte q = s.readByte q := rfl
@[simp] theorem State.setSt_readByte (b : Byte) (q : Nat) : (s.setSt b).readByte q = s.readByte q := rfl
@[simp] theorem State.show_readByte (c : BitVec Config.fbCells) (q : Nat) : (s.show c).readByte q = s.readByte q := rfl
@[simp] theorem State.setDrawHold_readByte (b : Bool) (q : Nat) : (s.setDrawHold b).readByte q = s.readByte q := rfl
@[simp] theorem State.setKeyWait_readByte (b : Bool) (k : Nibble) (q : Nat) : (s.setKeyWait b k).readByte q = s.readByte q := rfl
@[simp] theorem State.spendDraw_readByte (q : Nat) : s.spendDraw.readByte q = s.readByte q := rfl
@[simp] theorem State.raise_readByte (c : FaultCause) (o n : Word) (q : Nat) : (s.raise c o n).readByte q = s.readByte q := rfl
@[simp] theorem State.setMem_readByte (m : Memory) (a : Nat) : (s.setMem m).readByte a = Memory.read m a := rfl

end Sys2Proof.Machine
end

