-- ==== Sys2Proof/Laws/Ops.lean ====
section
/-! SUPPORT. One lemma per shared operation, saying once everything it can do. -/

namespace Sys2Proof.Machine

/-! ### The stack -/

theorem State.push_eq_some (s : State) (w : Word) (h : s.sp.val < Config.stackDepth) :
    s.push w = some { s with stack := s.stack.set s.sp.val w h, sp := ⟨s.sp.val + 1, Nat.succ_lt_succ h⟩ } :=
  dif_pos h

theorem State.push_eq_none (s : State) (w : Word) (h : s.sp.val = Config.stackDepth) : s.push w = none :=
  dif_neg (by omega)

theorem State.pop_eq_none (s : State) (h : s.sp.val = 0) : s.pop = none := dif_neg (by omega)

theorem State.pop_eq_some (s : State) (k : Nat) (hk : k < Config.stackDepth) (h : s.sp.val = k + 1) :
    s.pop = some (s.stack[k], { s with sp := ⟨k, Nat.lt_succ_of_lt hk⟩ }) := by
  unfold State.pop
  rw [dif_pos (by omega)]
  simp only [h, Nat.add_sub_cancel]

/-- A push finds room, or the stack is full. -/
theorem State.push_cases (s : State) (w : Word) :
    (∃ h : s.sp.val < Config.stackDepth,
      s.push w = some { s with stack := s.stack.set s.sp.val w h, sp := ⟨s.sp.val + 1, Nat.succ_lt_succ h⟩ }) ∨
    (s.sp.val = 12 ∧ s.push w = none) := by
  have hsp : s.sp.val < 13 := s.sp.isLt
  by_cases h : s.sp.val < 12
  · exact Or.inl ⟨h, State.push_eq_some s w h⟩
  · have h12 : s.sp.val = 12 := by omega
    exact Or.inr ⟨h12, State.push_eq_none s w h12⟩

/-- A pop finds an entry, or the stack is empty. -/
theorem State.pop_cases (s : State) :
    (∃ k, ∃ hk : k < Config.stackDepth, s.sp.val = k + 1 ∧
      s.pop = some (s.stack[k], { s with sp := ⟨k, Nat.lt_succ_of_lt hk⟩ })) ∨
    (s.sp.val = 0 ∧ s.pop = none) := by
  have hsp : s.sp.val < 13 := s.sp.isLt
  by_cases h : s.sp.val = 0
  · exact Or.inr ⟨h, State.pop_eq_none s h⟩
  · have hk : s.sp.val - 1 < 12 := by omega
    exact Or.inl ⟨s.sp.val - 1, hk, by omega, State.pop_eq_some s _ hk (by omega)⟩

/-- Everything `CALL` can do. -/
theorem exec_call_cases (nnn : Addr) (s t : State) (ht : exec (.call nnn) s = .next t) :
    (∃ h : s.sp.val < Config.stackDepth,
      t = { s with
        pc := addrWord nnn
        stack := s.stack.set s.sp.val (s.pc + 2) h
        sp := ⟨s.sp.val + 1, Nat.succ_lt_succ h⟩ }) ∨
    (s.sp.val = 12 ∧ t = s.raise .stackOverflow (encode (.call nnn)) (addrWord nnn)) := by
  simp only [exec, execCall] at ht
  rcases s.push_cases s.advance.pc with ⟨h, e⟩ | ⟨h, e⟩ <;> rw [e] at ht <;> cases ht
  · exact Or.inl ⟨h, rfl⟩
  · exact Or.inr ⟨h, rfl⟩

/-- Everything `RET` can do. -/
theorem exec_ret_cases (s t : State) (ht : exec .ret s = .next t) :
    (∃ k, ∃ hk : k < Config.stackDepth, s.sp.val = k + 1 ∧
      t = { s with pc := s.stack[k], sp := ⟨k, Nat.lt_succ_of_lt hk⟩ }) ∨
    (s.sp.val = 0 ∧ t = s.raise .stackUnderflow (encode .ret) 0) := by
  simp only [exec, execRet] at ht
  rcases s.pop_cases with ⟨k, hk, h, e⟩ | ⟨h, e⟩ <;> rw [e] at ht <;> cases ht
  · exact Or.inl ⟨k, hk, h, rfl⟩
  · exact Or.inr ⟨h, rfl⟩

/-! ### Data accesses, skips, keys -/

theorem accessInside_iff (a n : Nat) : accessInside a n = true ↔ ∀ k < n, a + k < Config.memSize := by
  simp only [accessInside, Bool.or_eq_true, beq_iff_eq, decide_eq_true_eq]
  constructor
  · rintro (rfl | h) k hk <;> omega
  · intro h
    rcases Nat.eq_zero_or_pos n with rfl | hn
    · exact Or.inl rfl
    · exact Or.inr (by have := h (n - 1) (by omega); omega)

theorem accessInside_of_le (a n : Nat) (h : a + n ≤ 4096) : accessInside a n = true := by
  rw [accessInside_iff]; intro k hk; simp only [Config.memSize]; omega

theorem accessInside_of_gt (a n : Nat) (hn : 0 < n) (h : 4096 < a + n) : accessInside a n = false := by
  rw [Bool.eq_false_iff, Ne, accessInside_iff]
  intro hall
  have := hall (n - 1) (by omega)
  simp only [Config.memSize] at this
  omega

theorem State.access_inside (s : State) (op : Word) (n : Nat) (done : State) (h : accessInside s.i.toNat n = true) :
    s.access op n done = .next done := if_pos h

theorem State.access_outside (s : State) (op : Word) (n : Nat) (done : State)
    (h : accessInside s.i.toNat n = false) :
    s.access op n done = .next (s.raise .dataOutOfRange op (lowestOutside s.i)) := if_neg (by simp [h])

/-- A data access answers a next state: the finished instruction, or the fault and nothing else. -/
theorem State.access_cases (s t : State) (op : Word) (n : Nat) (done : State) (h : s.access op n done = .next t) :
    (accessInside s.i.toNat n = true ∧ t = done) ∨
    (accessInside s.i.toNat n = false ∧ t = s.raise .dataOutOfRange op (lowestOutside s.i)) := by
  cases hin : accessInside s.i.toNat n with
  | true => rw [State.access_inside s op n done hin] at h; cases h; exact Or.inl ⟨rfl, rfl⟩
  | false => rw [State.access_outside s op n done hin] at h; cases h; exact Or.inr ⟨rfl, rfl⟩

theorem State.skipIf_eq (s : State) (c : Bool) : s.skipIf c = s.setPc (if c then s.pc + 4 else s.pc + 2) := by
  cases c
  · rfl
  · simp only [State.skipIf, State.advance, State.setPc, if_true, BitVec.add_assoc]; rfl

theorem keyOf_inside (b : Byte) (h : b.toNat ≤ 15) : keyOf b = some (b.setWidth 4) := if_pos h

theorem keyOf_outside (b : Byte) (h : 15 < b.toNat) : keyOf b = none := if_neg (by omega)

/-- A skip on a register that names a key. -/
theorem State.skipOnKey_inside (s : State) (op : Word) (b : Byte) (down : Bool) (h : b.toNat ≤ 15) :
    s.skipOnKey op b down = s.setPc (if s.key.getLsbD b.toNat == down then s.pc + 4 else s.pc + 2) := by
  have hk : (b.setWidth 4).toNat = b.toNat := by rw [BitVec.toNat_setWidth]; omega
  simp only [State.skipOnKey, keyOf_inside b h, State.skipIf_eq, State.keyDown, hk]

/-- A skip on a register that names no key. -/
theorem State.skipOnKey_outside (s : State) (op : Word) (b : Byte) (down : Bool) (h : 15 < b.toNat) :
    s.skipOnKey op b down = s.raise .keyIndexOutOfRange op (byteWord b) := by
  simp only [State.skipOnKey, keyOf_outside b h]

/-- The upper byte of the word fetched is the byte at `pc`. -/
theorem State.fetchWord_upper (s : State) : s.fetchWord.extractLsb' 8 8 = s.readByte s.pc.toNat := by
  apply BitVec.eq_of_getLsbD_eq
  intro k hk
  rw [State.fetchWord, BitVec.getLsbD_extractLsb', BitVec.getLsbD_append]
  simp [hk]

/-- The lower byte of the word fetched is the byte after it. -/
theorem State.fetchWord_lower (s : State) : s.fetchWord.extractLsb' 0 8 = s.readByte (s.pc.toNat + 1) := by
  apply BitVec.eq_of_getLsbD_eq
  intro k hk
  rw [State.fetchWord, BitVec.getLsbD_extractLsb', BitVec.getLsbD_append]
  simp [hk]

/-- The priority encoder: no key is down, or the answer is down and every key below it is up. -/
theorem lowestKey_cases (latch : BitVec Config.nKeys) :
    (lowestKey latch = none ∧ latch = 0) ∨
    ∃ k : Nibble, lowestKey latch = some k ∧ latch.getLsbD k.toNat = true ∧
      ∀ j < k.toNat, latch.getLsbD j = false := by
  cases hf : (List.range Config.nKeys).find? (fun k => latch.getLsbD k) with
  | none =>
    refine Or.inl ⟨by simp [lowestKey, hf], ?_⟩
    rw [List.find?_eq_none] at hf
    apply BitVec.eq_of_getLsbD_eq
    intro k hk
    have := hf k (List.mem_range.mpr hk)
    simpa using this
  | some k =>
    have hk := hf
    rw [List.find?_range_eq_some] at hk
    have hlt : k < 16 := List.mem_range.mp hk.2.1
    refine Or.inr ⟨BitVec.ofNat 4 k, by simp [lowestKey, hf], ?_, ?_⟩
    · simpa [BitVec.toNat_ofNat, Nat.mod_eq_of_lt hlt] using hk.1
    · intro j hj
      rw [BitVec.toNat_ofNat, Nat.mod_eq_of_lt hlt] at hj
      have := hk.2.2 j hj
      simpa using this

theorem shiftAmount_fixed (vy : Byte) : shiftAmount Config.shiftMode vy = some 1 := rfl

/-! ### Bulk transfers -/

theorem loadBlock_getElem (m : Memory) (a : Nat) (v : Vector Byte 16) (n k : Nat) (hk : k < 16) :
    (loadBlock m a v n)[k] = if k < n then Memory.read m (a + k) else v[k] := by
  induction n with
  | zero => simp [loadBlock]
  | succ n ih =>
    rw [loadBlock, Vector.getElem_setIfInBounds]
    split
    · next h => subst h; simp
    · next h => rw [ih]; by_cases hkn : k < n <;> simp [hkn, show (k < n + 1) ↔ (k < n) by omega]

theorem State.regBlock_length (s : State) (x : Nibble) : (s.regBlock x).length = blockSize x := by
  have := x.isLt
  simp only [State.regBlock, blockSize, List.length_take, Vector.length_toList]
  omega

theorem State.regBlock_getD (s : State) (x r : Nibble) (h : r.toNat ≤ x.toNat) :
    (s.regBlock x).getD r.toNat 0 = s.reg r := by
  have hx := x.isLt
  have hr : r.toNat < (s.regBlock x).length := by rw [State.regBlock_length]; unfold blockSize; omega
  rw [List.getD_eq_getElem?_getD, List.getElem?_eq_getElem hr, Option.getD_some]
  simp [State.regBlock, State.reg]

/-! ### The rasteriser -/

/-- The pixels of a row toggle exactly the visible cells under its 1 bits. -/
theorem drawPixels_cell (b : Byte) (x0 y : Nat) (canvas : Canvas) (n j : Nat) (hy : y < 32) (hn : n ≤ 8) :
    (drawPixels b x0 y canvas n).fb.getLsbD j =
      ((canvas.fb.getLsbD j) ^^
        decide (∃ c < n, x0 + c ≤ 63 ∧ spritePixel b c = true ∧ j = cellIndex (x0 + c) y)) := by
  induction n with
  | zero => simp [drawPixels]
  | succ n ih =>
    have ih := ih (by omega)
    rw [drawPixels]
    simp only [Bool.and_eq_true, decide_eq_true_eq]
    split
    · next hvis =>
      rw [toggleCell, BitVec.getLsbD_xor, ih, BitVec.getLsbD_twoPow]
      have hin : cellIndex (x0 + n) y < 2048 := by unfold cellIndex; simp only [Config.fbWidth]; omega
      by_cases hj : j = cellIndex (x0 + n) y
      · have hno : ¬ ∃ c < n, x0 + c ≤ 63 ∧ spritePixel b c = true ∧ j = cellIndex (x0 + c) y := by
          rintro ⟨c, hc, -, -, hcj⟩
          unfold cellIndex at hj hcj; omega
        have hyes : ∃ c < n + 1, x0 + c ≤ 63 ∧ spritePixel b c = true ∧ j = cellIndex (x0 + c) y :=
          ⟨n, by omega, hvis.1, hvis.2, hj⟩
        simp only [hno, hyes]
        simp [hj, hin]
      · have hiff : (∃ c < n + 1, x0 + c ≤ 63 ∧ spritePixel b c = true ∧ j = cellIndex (x0 + c) y) ↔
            (∃ c < n, x0 + c ≤ 63 ∧ spritePixel b c = true ∧ j = cellIndex (x0 + c) y) := by
          constructor
          · rintro ⟨c, hc, h1, h2, h3⟩
            refine ⟨c, ?_, h1, h2, h3⟩
            rcases Nat.lt_succ_iff_lt_or_eq.mp hc with h | h
            · exact h
            · subst h; exact absurd h3 hj
          · rintro ⟨c, hc, h⟩; exact ⟨c, by omega, h⟩
        have hflip : decide (cellIndex (x0 + n) y = j) = false := decide_eq_false (Ne.symm hj)
        rw [hflip, Bool.and_false, Bool.xor_false]
        exact congrArg (canvas.fb.getLsbD j ^^ ·) (decide_eq_decide.mpr hiff.symm)
    · next hvis =>
      rw [ih]
      congr 1
      apply decide_eq_decide.mpr
      constructor
      · rintro ⟨c, hc, h⟩; exact ⟨c, by omega, h⟩
      · rintro ⟨c, hc, h1, h2, h3⟩
        refine ⟨c, ?_, h1, h2, h3⟩
        rcases Nat.lt_succ_iff_lt_or_eq.mp hc with h | h
        · exact h
        · subst h; exact absurd ⟨h1, h2⟩ hvis

/-- A row collides iff one of its visible 1 bits lies over a set cell. -/
theorem drawPixels_collision (b : Byte) (x0 y : Nat) (canvas : Canvas) (n : Nat) (hy : y < 32)
    (hn : n ≤ 8) :
    (drawPixels b x0 y canvas n).collision =
      (canvas.collision ||
        decide (∃ c < n, x0 + c ≤ 63 ∧ spritePixel b c = true ∧
          canvas.fb.getLsbD (cellIndex (x0 + c) y) = true)) := by
  induction n with
  | zero => simp [drawPixels]
  | succ n ih =>
    have ih := ih (by omega)
    have hcell := drawPixels_cell b x0 y canvas n (cellIndex (x0 + n) y) hy (by omega)
    have hno : ¬ ∃ c < n, x0 + c ≤ 63 ∧ spritePixel b c = true ∧ cellIndex (x0 + n) y = cellIndex (x0 + c) y := by
      rintro ⟨c, hc, -, -, h⟩; unfold cellIndex at h; omega
    rw [decide_eq_false hno, Bool.xor_false] at hcell
    rw [drawPixels]
    simp only [Bool.and_eq_true, decide_eq_true_eq]
    split
    · next hvis =>
      simp only [toggleCell]
      rw [ih, hcell, Bool.or_assoc]
      refine congrArg (canvas.collision || ·) ?_
      rw [Bool.eq_iff_iff]
      simp only [Bool.or_eq_true, decide_eq_true_eq]
      constructor
      · rintro (⟨c, hc, h⟩ | h)
        · exact ⟨c, by omega, h⟩
        · exact ⟨n, by omega, hvis.1, hvis.2, h⟩
      · rintro ⟨c, hc, h1, h2, h3⟩
        rcases Nat.lt_succ_iff_lt_or_eq.mp hc with h | h
        · exact Or.inl ⟨c, h, h1, h2, h3⟩
        · subst h; exact Or.inr h3
    · next hvis =>
      rw [ih]
      congr 1
      apply decide_eq_decide.mpr
      constructor
      · rintro ⟨c, hc, h⟩; exact ⟨c, by omega, h⟩
      · rintro ⟨c, hc, h1, h2, h3⟩
        rcases Nat.lt_succ_iff_lt_or_eq.mp hc with h | h
        · exact ⟨c, h, h1, h2, h3⟩
        · subst h; exact absurd ⟨h1, h2⟩ hvis

/-- A sprite toggles exactly the cells it covers. -/
theorem drawSprite_cell (m : Memory) (a x0 y0 : Nat) (canvas : Canvas) (rows j : Nat)
    (hrows : y0 + rows ≤ 32) :
    (drawSprite m a x0 y0 canvas rows).fb.getLsbD j =
      ((canvas.fb.getLsbD j) ^^ decide (Covers m a x0 y0 rows j)) := by
  induction rows with
  | zero => simp [drawSprite, Covers]
  | succ n ih =>
    rw [drawSprite, drawPixels_cell _ _ _ _ _ _ (by omega) (Nat.le_refl 8), ih (by omega), Bool.xor_assoc]
    congr 1
    by_cases hlast : ∃ c < 8, x0 + c ≤ 63 ∧ spritePixel (Memory.read m (a + n)) c = true ∧
        j = cellIndex (x0 + c) (y0 + n)
    · have hprev : ¬ Covers m a x0 y0 n j := by
        rintro ⟨r, hr, c', hc', hx', -, hj'⟩
        obtain ⟨c, hc, hx, -, hj⟩ := hlast
        unfold cellIndex at hj hj'; simp only [Config.fbWidth] at hj hj'; omega
      have hall : Covers m a x0 y0 (n + 1) j := ⟨n, by omega, hlast⟩
      rw [decide_eq_false hprev, decide_eq_true hall, decide_eq_true hlast]; rfl
    · have hiff : Covers m a x0 y0 n j ↔ Covers m a x0 y0 (n + 1) j := by
        constructor
        · rintro ⟨r, hr, h⟩; exact ⟨r, by omega, h⟩
        · rintro ⟨r, hr, h⟩
          rcases Nat.lt_succ_iff_lt_or_eq.mp hr with h' | h'
          · exact ⟨r, h', h⟩
          · subst h'; exact absurd h hlast
      rw [decide_eq_false hlast, Bool.xor_false]
      exact decide_eq_decide.mpr hiff

/-- A sprite collides iff it covers a cell that was set before the draw. -/
theorem drawSprite_collision (m : Memory) (a x0 y0 : Nat) (canvas : Canvas) (rows : Nat)
    (hrows : y0 + rows ≤ 32) :
    (drawSprite m a x0 y0 canvas rows).collision = true ↔
      (canvas.collision = true ∨ ∃ j, Covers m a x0 y0 rows j ∧ canvas.fb.getLsbD j = true) := by
  induction rows with
  | zero => simp [drawSprite, Covers]
  | succ n ih =>
    rw [drawSprite, drawPixels_collision _ _ _ _ _ (by omega) (Nat.le_refl 8), Bool.or_eq_true, ih (by omega),
      or_assoc]
    refine or_congr_right ?_
    have hrow : ∀ c < 8, x0 + c ≤ 63 →
        (drawSprite m a x0 y0 canvas n).fb.getLsbD (cellIndex (x0 + c) (y0 + n)) =
          canvas.fb.getLsbD (cellIndex (x0 + c) (y0 + n)) := by
      intro c hc hx
      rw [drawSprite_cell m a x0 y0 canvas n _ (by omega)]
      have : ¬ Covers m a x0 y0 n (cellIndex (x0 + c) (y0 + n)) := by
        rintro ⟨r, hr, c', hc', hx', -, hj⟩
        unfold cellIndex at hj; simp only [Config.fbWidth] at hj; omega
      rw [decide_eq_false this, Bool.xor_false]
    rw [decide_eq_true_eq]
    constructor
    · rintro (⟨j, ⟨r, hr, h⟩, hset⟩ | ⟨c, hc, hx, hp, hset⟩)
      · exact ⟨j, ⟨r, by omega, h⟩, hset⟩
      · rw [hrow c hc hx] at hset
        exact ⟨_, ⟨n, by omega, c, hc, hx, hp, rfl⟩, hset⟩
    · rintro ⟨j, ⟨r, hr, c, hc, hx, hp, hj⟩, hset⟩
      rcases Nat.lt_succ_iff_lt_or_eq.mp hr with h | h
      · exact Or.inl ⟨j, ⟨r, h, c, hc, hx, hp, hj⟩, hset⟩
      · subst h; subst hj
        exact Or.inr ⟨c, hc, hx, hp, by rw [hrow c hc hx]; exact hset⟩

/-- A `DRW` whose drawn rows lie inside memory completes with the canvas it draws. -/
theorem exec_drw_inside (x y n : Nibble) (s : State)
    (h : accessInside s.i.toNat (drawnRows n (startRow (s.reg y))) = true) :
    exec (.drw x y n) s = .next (((s.advance.show (s.drawn x y n).fb).setReg vf
      (flagByte (s.drawn x y n).collision)).setDrawHold true) := State.access_inside _ _ _ _ h

theorem startColumn_lt (b : Byte) : startColumn b < 64 := Nat.mod_lt _ (by decide)

theorem startRow_lt (b : Byte) : startRow b < 32 := Nat.mod_lt _ (by decide)

theorem drawnRows_inside (n : Nibble) (b : Byte) : startRow b + drawnRows n (startRow b) ≤ 32 := by
  have := startRow_lt b
  unfold drawnRows; simp only [Config.fbHeight]; omega

/-! ### The gate, the fetch and the step -/

theorem State.enabled_iff (s : State) : s.enabled = true ↔ s.runState = .running ∧ s.faultCause = .noFault := by
  simp [State.enabled]

theorem State.open_iff (s : State) :
    s.open = true ↔ s.runState = .running ∧ s.faultCause = .noFault ∧ s.drawHold = false := by
  simp [State.open, State.enabled_iff, and_assoc]

theorem fetchFault_cases (pc : Word) :
    (4094 < pc.toNat ∧ fetchFault pc = some .fetchOutOfRange) ∨
    (pc.toNat ≤ 4094 ∧ pc.getLsbD 0 = true ∧ fetchFault pc = some .fetchMisaligned) ∨
    (pc.toNat ≤ 4094 ∧ pc.getLsbD 0 = false ∧ fetchFault pc = none) := by
  unfold fetchFault
  by_cases h : 4094 < pc.toNat
  · exact Or.inl ⟨h, if_pos h⟩
  · cases hb : pc.getLsbD 0
    · exact Or.inr (Or.inr ⟨by omega, rfl, by rw [if_neg h]; rfl⟩)
    · exact Or.inr (Or.inl ⟨by omega, rfl, by rw [if_neg h]; rfl⟩)

theorem step_closed (s : State) (h : s.open = false) : step s = .next s := by
  simp [step, cycle, h]

theorem step_fetchFault (s : State) (c : FaultCause) (h : s.open = true) (hf : fetchFault s.pc = some c) :
    step s = .next (s.raise c 0 s.pc) := by
  simp [step, cycle, h, hf]

theorem step_runWord (s : State) (h : s.open = true) (hf : fetchFault s.pc = none) :
    step s = runWord s.fetchWord s := by
  simp [step, cycle, h, hf]

/-- Everything a step can do. -/
theorem step_cases (s : State) :
    (s.open = false ∧ step s = .next s) ∨
    (s.open = true ∧ ∃ c, fetchFault s.pc = some c ∧ step s = .next (s.raise c 0 s.pc)) ∨
    (s.open = true ∧ fetchFault s.pc = none ∧ decode s.fetchWord = none ∧ step s = .next s.advance) ∨
    (s.open = true ∧ fetchFault s.pc = none ∧ ∃ i, decode s.fetchWord = some i ∧ step s = exec i s) := by
  cases ho : s.open with
  | false => exact Or.inl ⟨rfl, step_closed s ho⟩
  | true =>
    cases hf : fetchFault s.pc with
    | some c => exact Or.inr (Or.inl ⟨rfl, c, rfl, step_fetchFault s c ho hf⟩)
    | none =>
      have hs := step_runWord s ho hf
      cases hd : decode s.fetchWord with
      | none => exact Or.inr (Or.inr (Or.inl ⟨rfl, rfl, rfl, by rw [hs]; simp [runWord, hd]⟩))
      | some i => exact Or.inr (Or.inr (Or.inr ⟨rfl, rfl, i, rfl, by rw [hs]; simp [runWord, hd]⟩))

end Sys2Proof.Machine
end

