-- ==== Sys2Proof/Laws/Frames.lean ====
section
/-! SUPPORT. Which parts of the state each named update leaves as before, and the frame of a state built by updates. -/

namespace Sys2Proof.Machine

variable (s t : State)

@[simp] theorem Part.same_refl (p : Part) : p.same s s := by cases p <;> simp [Part.same]

@[simp] theorem Part.same_setMem (m : Memory) (p : Part) (h : p ≠ .memory) : p.same s (t.setMem m) ↔ p.same s t := by
  cases p <;> first | exact absurd rfl h | rfl

@[simp] theorem Part.same_setReg (x : Nibble) (b : Byte) (p : Part) : p.same s (t.setReg x b) ↔ p.same s t := by
  cases p <;> rfl

@[simp] theorem Part.same_setRegs (w : Vector Byte 16) (p : Part) : p.same s (t.setRegs w) ↔ p.same s t := by
  cases p <;> rfl

@[simp] theorem Part.same_setI (w : Word) (p : Part) (h : p ≠ .index) : p.same s (t.setI w) ↔ p.same s t := by
  cases p <;> first | exact absurd rfl h | rfl

@[simp] theorem Part.same_setPc (w : Word) (p : Part) : p.same s (t.setPc w) ↔ p.same s t := by
  cases p <;> rfl

@[simp] theorem Part.same_advance (p : Part) : p.same s t.advance ↔ p.same s t := by
  cases p <;> rfl

@[simp] theorem Part.same_setDt (b : Byte) (p : Part) (h : p ≠ .delay) : p.same s (t.setDt b) ↔ p.same s t := by
  cases p <;> first | exact absurd rfl h | rfl

@[simp] theorem Part.same_setSt (b : Byte) (p : Part) (h : p ≠ .sound) : p.same s (t.setSt b) ↔ p.same s t := by
  cases p <;> first | exact absurd rfl h | rfl

@[simp] theorem Part.same_show (c : BitVec Config.fbCells) (p : Part) (h : p ≠ .display) : p.same s (t.show c) ↔ p.same s t := by
  cases p <;> first | exact absurd rfl h | rfl

@[simp] theorem Part.same_setDrawHold (b : Bool) (p : Part) (h : p ≠ .hold) : p.same s (t.setDrawHold b) ↔ p.same s t := by
  cases p <;> first | exact absurd rfl h | rfl

@[simp] theorem Part.same_setKeyWait (b : Bool) (k : Nibble) (p : Part) (h : p ≠ .keyWait) : p.same s (t.setKeyWait b k) ↔ p.same s t := by
  cases p <;> first | exact absurd rfl h | rfl

@[simp] theorem Part.same_spendDraw (p : Part) (h : p ≠ .draws) : p.same s t.spendDraw ↔ p.same s t := by
  cases p <;> first | exact absurd rfl h | rfl

@[simp] theorem Part.same_raise (c : FaultCause) (o n : Word) (p : Part) : p.same s (t.raise c o n) ↔ p.same s t := by
  cases p <;> rfl

@[simp] theorem Part.same_skipIf (c : Bool) (p : Part) : p.same s (t.skipIf c) ↔ p.same s t := by
  rw [State.skipIf_eq]; cases p <;> rfl

@[simp] theorem Part.same_setResultFlag (x : Nibble) (b : Byte) (f : Bool) (p : Part) : p.same s (t.setResultFlag x b f) ↔ p.same s t := by
  cases p <;> rfl

end Sys2Proof.Machine
end

