-- ==== Sys2Proof/Laws/PerInstr.lean ====
section
/-! SUPPORT. A fact about every instruction as a term: its operands fit their fields, and its word is an example of the
row of its mnemonic in the opcode map (spec/30_encoding.md R63, R64, R65). -/

namespace Sys2Proof.Laws

/-- A word of format A under the mask of its rows. -/
theorem mask_address (f : Nibble) (nnn : Addr) : (f ++ nnn) &&& 0xF000#(4 + 12) = f ++ 0#12 := by
  apply BitVec.eq_of_getLsbD_eq
  intro k hk
  simp only [BitVec.getLsbD_and, BitVec.getLsbD_append]
  interval_cases k <;> simp

/-- A word of format XI under the mask of its rows. -/
theorem mask_immediate (f x : Nibble) (nn : Byte) : (f ++ x ++ nn) &&& 0xF000#(4 + 4 + 8) = f ++ 0#12 := by
  apply BitVec.eq_of_getLsbD_eq
  intro k hk
  simp only [BitVec.getLsbD_and, BitVec.getLsbD_append]
  interval_cases k <;> simp

/-- A word of format XY under the mask of its rows. -/
theorem mask_registers (f x y n : Nibble) : (f ++ x ++ y ++ n) &&& 0xF00F#(4 + 4 + 4 + 4) = f ++ 0#8 ++ n := by
  apply BitVec.eq_of_getLsbD_eq
  intro k hk
  simp only [BitVec.getLsbD_and, BitVec.getLsbD_append]
  interval_cases k <;> simp

/-- A word of format XYN under the mask of its row. -/
theorem mask_sprite (f x y n : Nibble) : (f ++ x ++ y ++ n) &&& 0xF000#(4 + 4 + 4 + 4) = f ++ 0#12 := by
  apply BitVec.eq_of_getLsbD_eq
  intro k hk
  simp only [BitVec.getLsbD_and, BitVec.getLsbD_append]
  interval_cases k <;> simp

/-- A word of format XF under the mask of its rows. -/
theorem mask_function (f x : Nibble) (nn : Byte) : (f ++ x ++ nn) &&& 0xF0FF#(4 + 4 + 8) = f ++ 0#4 ++ nn := by
  apply BitVec.eq_of_getLsbD_eq
  intro k hk
  simp only [BitVec.getLsbD_and, BitVec.getLsbD_append]
  interval_cases k <;> simp

/-- The row of R65 with this mnemonic. -/
def rowOf (m : String) : Option OpcodeRow := opcodeTable.find? fun r => r.mnemonic == m

end Sys2Proof.Laws

namespace Sys2Proof.Laws.WordMatchesRow

/-- The operands fit, and the word matches the row of the instruction's mnemonic. -/
def Statement (i : Instr) : Prop :=
  i.wellFormed = true ∧ ∃ r ∈ opcodeTable, r.mnemonic = i.mnemonic ∧ r.matchesWord (encode i) = true

/-- Operands fit because their types carry the widths. -/
theorem fits_width (w : Nat) (b : BitVec w) : fits w b.toNat = true := decide_eq_true b.isLt

theorem cls : Statement (.cls) := by
  refine ⟨rfl, opcodeTable[0], List.getElem_mem _, rfl, by decide⟩

theorem ret : Statement (.ret) := by
  refine ⟨rfl, opcodeTable[1], List.getElem_mem _, rfl, by decide⟩

theorem jp (nnn : Addr) : Statement (.jp nnn) := by
  refine ⟨by simp [Instr.wellFormed, Instr.operands, fits_width], opcodeTable[2], List.getElem_mem _, rfl, ?_⟩
  exact decide_eq_true ((Laws.mask_address ..).trans (by decide))

theorem call (nnn : Addr) : Statement (.call nnn) := by
  refine ⟨by simp [Instr.wellFormed, Instr.operands, fits_width], opcodeTable[3], List.getElem_mem _, rfl, ?_⟩
  exact decide_eq_true ((Laws.mask_address ..).trans (by decide))

theorem seImm (x : Nibble) (nn : Byte) : Statement (.seImm x nn) := by
  refine ⟨by simp [Instr.wellFormed, Instr.operands, fits_width], opcodeTable[4], List.getElem_mem _, rfl, ?_⟩
  exact decide_eq_true ((Laws.mask_immediate ..).trans (by decide))

theorem sneImm (x : Nibble) (nn : Byte) : Statement (.sneImm x nn) := by
  refine ⟨by simp [Instr.wellFormed, Instr.operands, fits_width], opcodeTable[5], List.getElem_mem _, rfl, ?_⟩
  exact decide_eq_true ((Laws.mask_immediate ..).trans (by decide))

theorem seReg (x y : Nibble) : Statement (.seReg x y) := by
  refine ⟨by simp [Instr.wellFormed, Instr.operands, fits_width], opcodeTable[6], List.getElem_mem _, rfl, ?_⟩
  exact decide_eq_true ((Laws.mask_registers ..).trans (by decide))

theorem ldImm (x : Nibble) (nn : Byte) : Statement (.ldImm x nn) := by
  refine ⟨by simp [Instr.wellFormed, Instr.operands, fits_width], opcodeTable[7], List.getElem_mem _, rfl, ?_⟩
  exact decide_eq_true ((Laws.mask_immediate ..).trans (by decide))

theorem addImm (x : Nibble) (nn : Byte) : Statement (.addImm x nn) := by
  refine ⟨by simp [Instr.wellFormed, Instr.operands, fits_width], opcodeTable[8], List.getElem_mem _, rfl, ?_⟩
  exact decide_eq_true ((Laws.mask_immediate ..).trans (by decide))

theorem ldReg (x y : Nibble) : Statement (.ldReg x y) := by
  refine ⟨by simp [Instr.wellFormed, Instr.operands, fits_width], opcodeTable[9], List.getElem_mem _, rfl, ?_⟩
  exact decide_eq_true ((Laws.mask_registers ..).trans (by decide))

theorem orReg (x y : Nibble) : Statement (.orReg x y) := by
  refine ⟨by simp [Instr.wellFormed, Instr.operands, fits_width], opcodeTable[10], List.getElem_mem _, rfl, ?_⟩
  exact decide_eq_true ((Laws.mask_registers ..).trans (by decide))

theorem andReg (x y : Nibble) : Statement (.andReg x y) := by
  refine ⟨by simp [Instr.wellFormed, Instr.operands, fits_width], opcodeTable[11], List.getElem_mem _, rfl, ?_⟩
  exact decide_eq_true ((Laws.mask_registers ..).trans (by decide))

theorem xorReg (x y : Nibble) : Statement (.xorReg x y) := by
  refine ⟨by simp [Instr.wellFormed, Instr.operands, fits_width], opcodeTable[12], List.getElem_mem _, rfl, ?_⟩
  exact decide_eq_true ((Laws.mask_registers ..).trans (by decide))

theorem addReg (x y : Nibble) : Statement (.addReg x y) := by
  refine ⟨by simp [Instr.wellFormed, Instr.operands, fits_width], opcodeTable[13], List.getElem_mem _, rfl, ?_⟩
  exact decide_eq_true ((Laws.mask_registers ..).trans (by decide))

theorem sub (x y : Nibble) : Statement (.sub x y) := by
  refine ⟨by simp [Instr.wellFormed, Instr.operands, fits_width], opcodeTable[14], List.getElem_mem _, rfl, ?_⟩
  exact decide_eq_true ((Laws.mask_registers ..).trans (by decide))

theorem shr (x y : Nibble) : Statement (.shr x y) := by
  refine ⟨by simp [Instr.wellFormed, Instr.operands, fits_width], opcodeTable[15], List.getElem_mem _, rfl, ?_⟩
  exact decide_eq_true ((Laws.mask_registers ..).trans (by decide))

theorem subn (x y : Nibble) : Statement (.subn x y) := by
  refine ⟨by simp [Instr.wellFormed, Instr.operands, fits_width], opcodeTable[16], List.getElem_mem _, rfl, ?_⟩
  exact decide_eq_true ((Laws.mask_registers ..).trans (by decide))

theorem shl (x y : Nibble) : Statement (.shl x y) := by
  refine ⟨by simp [Instr.wellFormed, Instr.operands, fits_width], opcodeTable[17], List.getElem_mem _, rfl, ?_⟩
  exact decide_eq_true ((Laws.mask_registers ..).trans (by decide))

theorem sneReg (x y : Nibble) : Statement (.sneReg x y) := by
  refine ⟨by simp [Instr.wellFormed, Instr.operands, fits_width], opcodeTable[18], List.getElem_mem _, rfl, ?_⟩
  exact decide_eq_true ((Laws.mask_registers ..).trans (by decide))

theorem ldI (nnn : Addr) : Statement (.ldI nnn) := by
  refine ⟨by simp [Instr.wellFormed, Instr.operands, fits_width], opcodeTable[19], List.getElem_mem _, rfl, ?_⟩
  exact decide_eq_true ((Laws.mask_address ..).trans (by decide))

theorem jpV0 (nnn : Addr) : Statement (.jpV0 nnn) := by
  refine ⟨by simp [Instr.wellFormed, Instr.operands, fits_width], opcodeTable[20], List.getElem_mem _, rfl, ?_⟩
  exact decide_eq_true ((Laws.mask_address ..).trans (by decide))

theorem rnd (x : Nibble) (nn : Byte) : Statement (.rnd x nn) := by
  refine ⟨by simp [Instr.wellFormed, Instr.operands, fits_width], opcodeTable[21], List.getElem_mem _, rfl, ?_⟩
  exact decide_eq_true ((Laws.mask_immediate ..).trans (by decide))

theorem drw (x y n : Nibble) : Statement (.drw x y n) := by
  refine ⟨by simp [Instr.wellFormed, Instr.operands, fits_width], opcodeTable[22], List.getElem_mem _, rfl, ?_⟩
  exact decide_eq_true ((Laws.mask_sprite ..).trans (by decide))

theorem skp (x : Nibble) : Statement (.skp x) := by
  refine ⟨by simp [Instr.wellFormed, Instr.operands, fits_width], opcodeTable[23], List.getElem_mem _, rfl, ?_⟩
  exact decide_eq_true ((Laws.mask_function ..).trans (by decide))

theorem sknp (x : Nibble) : Statement (.sknp x) := by
  refine ⟨by simp [Instr.wellFormed, Instr.operands, fits_width], opcodeTable[24], List.getElem_mem _, rfl, ?_⟩
  exact decide_eq_true ((Laws.mask_function ..).trans (by decide))

theorem ldVxDt (x : Nibble) : Statement (.ldVxDt x) := by
  refine ⟨by simp [Instr.wellFormed, Instr.operands, fits_width], opcodeTable[25], List.getElem_mem _, rfl, ?_⟩
  exact decide_eq_true ((Laws.mask_function ..).trans (by decide))

theorem ldVxK (x : Nibble) : Statement (.ldVxK x) := by
  refine ⟨by simp [Instr.wellFormed, Instr.operands, fits_width], opcodeTable[26], List.getElem_mem _, rfl, ?_⟩
  exact decide_eq_true ((Laws.mask_function ..).trans (by decide))

theorem ldDtVx (x : Nibble) : Statement (.ldDtVx x) := by
  refine ⟨by simp [Instr.wellFormed, Instr.operands, fits_width], opcodeTable[27], List.getElem_mem _, rfl, ?_⟩
  exact decide_eq_true ((Laws.mask_function ..).trans (by decide))

theorem ldStVx (x : Nibble) : Statement (.ldStVx x) := by
  refine ⟨by simp [Instr.wellFormed, Instr.operands, fits_width], opcodeTable[28], List.getElem_mem _, rfl, ?_⟩
  exact decide_eq_true ((Laws.mask_function ..).trans (by decide))

theorem addI (x : Nibble) : Statement (.addI x) := by
  refine ⟨by simp [Instr.wellFormed, Instr.operands, fits_width], opcodeTable[29], List.getElem_mem _, rfl, ?_⟩
  exact decide_eq_true ((Laws.mask_function ..).trans (by decide))

theorem ldF (x : Nibble) : Statement (.ldF x) := by
  refine ⟨by simp [Instr.wellFormed, Instr.operands, fits_width], opcodeTable[30], List.getElem_mem _, rfl, ?_⟩
  exact decide_eq_true ((Laws.mask_function ..).trans (by decide))

theorem ldB (x : Nibble) : Statement (.ldB x) := by
  refine ⟨by simp [Instr.wellFormed, Instr.operands, fits_width], opcodeTable[31], List.getElem_mem _, rfl, ?_⟩
  exact decide_eq_true ((Laws.mask_function ..).trans (by decide))

theorem stRegs (x : Nibble) : Statement (.stRegs x) := by
  refine ⟨by simp [Instr.wellFormed, Instr.operands, fits_width], opcodeTable[32], List.getElem_mem _, rfl, ?_⟩
  exact decide_eq_true ((Laws.mask_function ..).trans (by decide))

theorem ldRegs (x : Nibble) : Statement (.ldRegs x) := by
  refine ⟨by simp [Instr.wellFormed, Instr.operands, fits_width], opcodeTable[33], List.getElem_mem _, rfl, ?_⟩
  exact decide_eq_true ((Laws.mask_function ..).trans (by decide))

end Sys2Proof.Laws.WordMatchesRow
end

