-- ==== Sys2Proof/Tests/Slice0.lean ====
section
/-! SUPPORT. Tests, each expected result from spec/ (the vector of spec/95_test_vectors.md is named where there is one),
and for every statement with hypotheses a witness that meets them. -/

namespace Sys2Proof.Tests

open Sys2Proof Sys2Proof.Machine

/-! ### Well-formedness (spec/30_encoding.md R61, R63) -/

/-- A register selector, an immediate or an address one too large is refused. -/
theorem test_wellFormed_refuses :
    fits 4 16 = false ∧ fits 8 256 = false ∧ fits 12 4096 = false := by decide

/-- The largest operands of each width pass. -/
theorem test_wellFormed_accepts :
    (Instr.drw 15 15 15).wellFormed = true ∧ (Instr.ldImm 15 255).wellFormed = true ∧
    (Instr.jp 4095).wellFormed = true ∧ Instr.cls.wellFormed = true := by decide

/-! ### Decoding: every instruction's word, bit by bit from the patterns of R65 -/

theorem test_decode_CLS : decode 0b0000000011100000#16 = some .cls := by decide
theorem test_decode_RET : decode 0b0000000011101110#16 = some .ret := by decide
theorem test_decode_JP : decode 0b0001001100000001#16 = some (.jp 0x301) := by decide
theorem test_decode_CALL : decode 0b0010101010111100#16 = some (.call 0xABC) := by decide
theorem test_decode_SE_imm : decode 0b0011001100101010#16 = some (.seImm 3 0x2A) := by decide
theorem test_decode_SNE_imm : decode 0b0100001100101010#16 = some (.sneImm 3 0x2A) := by decide
theorem test_decode_SE_reg : decode 0b0101000100100000#16 = some (.seReg 1 2) := by decide
theorem test_decode_LD_imm : decode 0b0110101000111110#16 = some (.ldImm 10 0x3E) := by decide
theorem test_decode_ADD_imm : decode 0b0111000011111111#16 = some (.addImm 0 0xFF) := by decide
theorem test_decode_LD_reg : decode 0b1000000100100000#16 = some (.ldReg 1 2) := by decide
theorem test_decode_OR : decode 0b1000000100100001#16 = some (.orReg 1 2) := by decide
theorem test_decode_AND : decode 0b1000000100100010#16 = some (.andReg 1 2) := by decide
theorem test_decode_XOR : decode 0b1000000100100011#16 = some (.xorReg 1 2) := by decide
theorem test_decode_ADD_reg : decode 0b1000000100100100#16 = some (.addReg 1 2) := by decide
theorem test_decode_SUB : decode 0b1000000100100101#16 = some (.sub 1 2) := by decide
theorem test_decode_SHR : decode 0b1000000100100110#16 = some (.shr 1 2) := by decide
theorem test_decode_SUBN : decode 0b1000000100100111#16 = some (.subn 1 2) := by decide
theorem test_decode_SHL : decode 0b1000000100101110#16 = some (.shl 1 2) := by decide
theorem test_decode_SNE_reg : decode 0b1001000100100000#16 = some (.sneReg 1 2) := by decide
theorem test_decode_LD_I : decode 0b1010001100000001#16 = some (.ldI 0x301) := by decide
theorem test_decode_JP_V0 : decode 0b1011001100000001#16 = some (.jpV0 0x301) := by decide
theorem test_decode_RND : decode 0b1100001100001111#16 = some (.rnd 3 0x0F) := by decide
theorem test_decode_DRW : decode 0b1101000000010011#16 = some (.drw 0 1 3) := by decide
theorem test_decode_SKP : decode 0b1110010010011110#16 = some (.skp 4) := by decide
theorem test_decode_SKNP : decode 0b1110010010100001#16 = some (.sknp 4) := by decide
theorem test_decode_LD_Vx_DT : decode 0b1111001000000111#16 = some (.ldVxDt 2) := by decide
theorem test_decode_LD_Vx_K : decode 0b1111001000001010#16 = some (.ldVxK 2) := by decide
theorem test_decode_LD_DT_Vx : decode 0b1111001000010101#16 = some (.ldDtVx 2) := by decide
theorem test_decode_LD_ST_Vx : decode 0b1111001000011000#16 = some (.ldStVx 2) := by decide
theorem test_decode_ADD_I : decode 0b1111001000011110#16 = some (.addI 2) := by decide
theorem test_decode_LD_F : decode 0b1111001000101001#16 = some (.ldF 2) := by decide
theorem test_decode_LD_B : decode 0b1111001000110011#16 = some (.ldB 2) := by decide
theorem test_decode_ST_regs : decode 0b1111001001010101#16 = some (.stRegs 2) := by decide
theorem test_decode_LD_regs : decode 0b1111001001100101#16 = some (.ldRegs 2) := by decide

/-- The unrecognised words of spec/95_test_vectors.md, Part 2. -/
theorem test_decode_unrecognised :
    ([0x0000#16, 0x0001, 0x00E1, 0x00FE, 0x01E0, 0x0123, 0x0FFF, 0x5121, 0x512F, 0x8128, 0x8129, 0x812A, 0x812B, 0x812C,
      0x812D, 0x812F, 0x9121, 0x912F].all fun op => decode op == none) = true ∧
    ([0xE000#16, 0xE19F, 0xE1A0, 0xE1FF, 0xF000, 0xF106, 0xF108, 0xF116, 0xF11F, 0xF130, 0xF134, 0xF154, 0xF156, 0xF166,
      0xF175, 0xF185, 0xF1FF, 0xFFFF].all fun op => decode op == none) = true := by decide

/-- The bytes of a word lie upper byte first, and a sequence too short for a word is rejected by name. -/
theorem test_decodeBytes :
    decodeBytes [0x13, 0x00, 0x77] = .instr (.jp 0x300) [0x77] ∧ decodeBytes [0x01, 0xE0] = .unrecognised 0x01E0 [] ∧
    decodeBytes [0x13] = .truncated [0x13] ∧ decodeTableWord 16 0x1300 = some (.jp 0x300) := by decide

/-- The assembler spelling of R69. -/
theorem test_asm : (Instr.drw 0 15 5).asm = "DRW V0, VF, 5" ∧ (Instr.stRegs 2).asm = "LD [I], V2" := by decide

/-! ### One step -/

/-- Registers set, from reset. -/
def regs (l : List (Nibble × Byte)) : State := l.foldl (fun s p => s.setReg p.1 p.2) State.reset

/-- One `Cycle` with the word at `pc`. -/
def after (op : Word) (s : State) : Option State := Result.state? (step (s.withFetchWord 16 op.toNat))

/-- What a field of the state after that `Cycle` is. -/
def out {α : Type} (op : Word) (s : State) (f : State → α) : Option α := (after op s).map f

/-- Bytes in memory at `0x300`, and `I` there. -/
def data (bytes : List Byte) (s : State) : State :=
  { s with i := 0x300, mem := Memory.writeList s.mem 0x300 bytes }

/-- Cells of the framebuffer. -/
def cells (l : List Nat) : BitVec Config.fbCells := l.foldl (fun b k => b ||| BitVec.twoPow Config.fbCells k) 0

-- S6
theorem test_JP : out 0x1300 State.reset (·.pc) = some 0x300 := by decide
-- V-C3
theorem test_CALL : out 0x2ABC { State.reset with sp := 11 } (fun s => (s.stack[11], s.sp, s.pc)) =
    some (0x202, 12, 0xABC) := by decide
-- V-X3
theorem test_CALL_overflow :
    out 0x2200 { State.reset with sp := 12 } (fun s => (s.faultRecord, s.sp, s.pc)) =
      some ((3, 0x200, 0x2200, 0x200), 12, 0x200) := by decide
-- V-C5
theorem test_RET : out 0x00EE { State.reset with sp := 1, stack := State.reset.stack.set 0 0x1000 }
    (fun s => (s.sp, s.pc)) = some (0, 0x1000) := by decide
-- V-X5
theorem test_RET_underflow : out 0x00EE State.reset (fun s => (s.faultRecord, s.pc)) =
    some ((4, 0x200, 0x00EE, 0), 0x200) := by decide
-- V-C6, V-C7
theorem test_SE_imm : out 0x332A (regs [(3, 0x2A)]) (·.pc) = some 0x204 ∧
    out 0x332A (regs [(3, 0x2B)]) (·.pc) = some 0x202 := by decide
-- V-C8, V-C9
theorem test_SNE_imm : out 0x432A (regs [(3, 0x2A)]) (·.pc) = some 0x202 ∧
    out 0x432A (regs [(3, 0)]) (·.pc) = some 0x204 := by decide
-- V-C10, V-C11
theorem test_SE_reg : out 0x5120 (regs [(1, 7), (2, 7)]) (·.pc) = some 0x204 ∧
    out 0x5120 (regs [(1, 7), (2, 8)]) (·.pc) = some 0x202 := by decide
-- V-C13, V-C14
theorem test_SNE_reg : out 0x9120 (regs [(1, 7), (2, 8)]) (·.pc) = some 0x204 ∧
    out 0x9120 (regs [(1, 7), (2, 7)]) (·.pc) = some 0x202 := by decide
-- V-C17, V-C18
theorem test_JP_V0 : out 0xBFFF (regs [(0, 0xFF)]) (·.pc) = some 0x10FE ∧
    out 0xB300 (regs [(0, 1)]) (·.pc) = some 0x301 := by decide
-- V-A1
theorem test_LD_imm : out 0x6A3E State.reset (fun s => (s.reg 10, s.pc)) = some (0x3E, 0x202) := by decide
-- V-A5
theorem test_ADD_imm : out 0x7001 (regs [(0, 0xFF), (15, 1)]) (fun s => (s.reg 0, s.reg 15)) = some (0, 1) := by decide
-- V-A6
theorem test_LD_reg : out 0x8120 (regs [(2, 9)]) (·.reg 1) = some 9 := by decide
-- V-A7
theorem test_OR : out 0x8121 (regs [(1, 0xF0), (2, 0x0F), (15, 1)]) (fun s => (s.reg 1, s.reg 15)) =
    some (0xFF, 1) := by decide
-- V-A8
theorem test_AND : out 0x8122 (regs [(1, 0xF0), (2, 0x3C)]) (·.reg 1) = some 0x30 := by decide
-- V-A9
theorem test_XOR : out 0x8123 (regs [(1, 0xF0), (2, 0x3C)]) (·.reg 1) = some 0xCC := by decide
-- V-A11
theorem test_ADD_reg : out 0x8124 (regs [(1, 200), (2, 100)]) (fun s => (s.reg 1, s.reg 15)) = some (44, 1) := by decide
-- V-A13, V-A14
theorem test_ADD_reg_flag : out 0x8F14 (regs [(15, 200), (1, 100)]) (·.reg 15) = some 1 ∧
    out 0x81F4 (regs [(15, 1), (1, 0xFF)]) (fun s => (s.reg 1, s.reg 15)) = some (0, 1) := by decide
-- V-A16, V-A17
theorem test_SUB : out 0x8125 (regs [(1, 50), (2, 100)]) (fun s => (s.reg 1, s.reg 15)) = some (206, 0) ∧
    out 0x8115 (regs [(1, 7)]) (fun s => (s.reg 1, s.reg 15)) = some (0, 1) := by decide
-- V-A18
theorem test_SUB_flag : out 0x8FF5 (regs [(15, 7)]) (·.reg 15) = some 1 := by decide
-- V-A19, V-A20
theorem test_SUBN : out 0x8127 (regs [(1, 50), (2, 100)]) (fun s => (s.reg 1, s.reg 15)) = some (50, 1) ∧
    out 0x8127 (regs [(1, 100), (2, 50)]) (fun s => (s.reg 1, s.reg 15)) = some (206, 0) := by decide
-- V-A21
theorem test_SHR : out 0x8126 (regs [(1, 0x55), (2, 7)]) (fun s => (s.reg 1, s.reg 15)) = some (0x2A, 1) := by decide
-- V-A25
theorem test_SHR_flag : out 0x8F06 (regs [(15, 3)]) (·.reg 15) = some 1 := by decide
-- V-A27
theorem test_SHL : out 0x812E (regs [(1, 0xAA), (2, 3)]) (fun s => (s.reg 1, s.reg 15)) = some (0x54, 1) := by decide
-- V-A31
theorem test_SHL_flag : out 0x8F0E (regs [(15, 0x81)]) (·.reg 15) = some 1 := by decide
-- V-A32
theorem test_RND (h : Config.rngByte 0 = 0xB7) : (Result.state? (exec (.rnd 3 0x0F) State.reset)).map (·.reg 3) =
    some 0x07 := by
  show some (Config.rngByte 0 &&& 0x0F) = some 0x07
  rw [h]; decide
-- V-A34
theorem test_RND_zero : (Result.state? (exec (.rnd 3 0) State.reset)).map (·.reg 3) = some 0 :=
  congrArg some (BitVec.and_zero (x := Config.rngByte 0))
-- V-M1
theorem test_LD_I : out 0xA300 { State.reset with i := 0xFFFF } (·.i) = some 0x300 := by decide
-- V-M3, V-M4
theorem test_ADD_I : out 0xF01E { regs [(0, 0xFF)] with i := 0xFFF } (fun s => (s.i, s.reg 15)) = some (0x10FE, 0) ∧
    out 0xF01E { regs [(0, 1)] with i := 0xFFFF } (·.i) = some 0 := by decide
-- V-M6, V-M7
theorem test_LD_F : out 0xF029 (regs [(0, 0xF)]) (·.i) = some 75 ∧ out 0xF029 (regs [(0, 0xFF)]) (·.i) = some 1275 := by
  decide
-- V-M10
theorem test_LD_B : out 0xF033 { regs [(0, 234)] with i := 0xFFD }
    (fun s => (s.readByte 0xFFD, s.readByte 0xFFE, s.readByte 0xFFF, s.i)) = some (2, 3, 4, 0xFFD) := by decide
-- V-M11
theorem test_LD_B_fault : out 0xF033 { regs [(0, 234)] with i := 0xFFE }
    (fun s => (s.faultRecord, s.readByte 0xFFE, s.pc)) = some ((5, 0x200, 0xF033, 0x1000), 0, 0x200) := by decide
-- V-M12
theorem test_ST_regs : out 0xF255 { regs [(0, 0x11), (1, 0x22), (2, 0x33), (3, 0x44)] with i := 0x400 }
    (fun s => ([s.readByte 0x400, s.readByte 0x401, s.readByte 0x402, s.readByte 0x403], s.i)) =
      some ([0x11, 0x22, 0x33, 0], 0x403) := by decide
-- V-M14
theorem test_ST_regs_top : out 0xFF55 { regs [(14, 7)] with i := 0xFF0 } (fun s => (s.readByte 0xFFE, s.i)) =
    some (7, 0x1000) := by decide
-- V-M15
theorem test_LD_regs : out 0xF265 (data [2, 3, 4, 5] (regs [(3, 9)]))
    (fun s => ([s.reg 0, s.reg 1, s.reg 2, s.reg 3], s.i)) = some ([2, 3, 4, 9], 0x303) := by decide
-- V-M16
theorem test_LD_regs_fault : out 0xF065 { State.reset with i := 0x1000 } (·.faultRecord) =
    some (5, 0x200, 0xF065, 0x1000) := by decide
-- S3
theorem test_CLS : out 0x00E0 { State.reset with fb := cells [0, 1000, 2047] }
    (fun s => (s.fb, s.redraw, s.drawHold, s.pc)) = some (0, true, false, 0x202) := by decide +kernel
-- V-D1
theorem test_DRW : out 0xD013 (data [0xFF, 0x81, 0xFF] (regs [(0, 62), (1, 30)]))
    (fun s => (s.fb, s.reg 15, s.redraw, s.drawHold)) = some (cells [1982, 1983, 2046], 0, true, true) := by decide +kernel
-- V-D8
theorem test_DRW_collision : out 0xD011 { data [0xC0] State.reset with fb := cells [0] }
    (fun s => (s.fb, s.reg 15)) = some (cells [1], 1) := by decide +kernel
-- V-K6, V-X9
theorem test_SKP : out 0xE49E { regs [(4, 15)] with key := 0x8000 } (·.pc) = some 0x204 ∧
    out 0xE09E (regs [(0, 16)]) (fun s => (s.faultRecord, s.pc)) = some ((6, 0x200, 0xE09E, 0x10), 0x200) := by decide
-- V-K3, V-K4
theorem test_SKNP : out 0xE4A1 (regs [(4, 0xA)]) (·.pc) = some 0x204 ∧
    out 0xE4A1 { regs [(4, 0xA)] with key := 0x400 } (·.pc) = some 0x202 := by decide
-- V-K12
theorem test_LD_Vx_K_capture : out 0xF10A { State.reset with key := 0x88 } (fun s => (s.kwActive, s.kwKey, s.pc, s.reg 1)) =
    some (true, 3, 0x200, 0) := by decide
-- V-K14
theorem test_LD_Vx_K_release : out 0xF10A { State.reset with key := 0x80, kwActive := true, kwKey := 3 }
    (fun s => (s.reg 1, s.kwActive, s.pc)) = some (3, false, 0x202) := by decide
-- V-K7
theorem test_LD_Vx_DT : out 0xF207 { State.reset with dt := 2 } (fun s => (s.reg 2, s.dt)) = some (2, 2) := by decide
-- V-K8
theorem test_LD_DT_Vx : out 0xF115 (regs [(1, 3)]) (·.dt) = some 3 := by decide
-- V-K9, V-K10
theorem test_LD_ST_Vx : out 0xF118 (regs [(1, 1)]) (fun s => (s.st, s.audioActive)) = some (1, true) ∧
    out 0xF118 { regs [(1, 0)] with st := 9 } (fun s => (s.st, s.audioActive)) = some (0, false) := by decide

-- V-X1, V-X2, V-X2b
theorem test_fetch_faults :
    (Result.state? (step { State.reset with pc := 0x1000 })).map (·.faultRecord) = some (1, 0x1000, 0, 0x1000) ∧
    (Result.state? (step { State.reset with pc := 0x201 })).map (·.faultRecord) = some (2, 0x201, 0, 0x201) ∧
    (Result.state? (step { State.reset with pc := 0xFFF })).map (·.faultRecord) = some (1, 0xFFF, 0, 0xFFF) := by decide

/-- The word `0000` of empty memory is unrecognised: only `pc` moves (V-R6). -/
theorem test_step_from_reset : Result.state? (step State.reset) = some { State.reset with pc := 0x202 } := by decide +kernel

/-! ### Host events -/

-- V-E3
theorem test_tick : ((State.reset.setDt 255).setSt 1).onTick = (State.reset.setDt 254).setSt 0 := by decide +kernel
-- V-E10
theorem test_tick_paused : State.onTick { State.reset with drawHold := true, runState := .paused, dt := 5 } =
    { State.reset with drawHold := true, runState := .paused, dt := 5 } := by decide +kernel
-- V-E4, V-E5
theorem test_pause : (sessionOf (Session.start.run
      [.loadRom [0x60, 0x01], .togglePause, .cycle, .keyWrite 2 true, .togglePause, .cycle])).map
      (fun c => (c.machine.reg 0, c.machine.pc, c.machine.key, c.machine.runState)) =
    some (1, 0x202, 4, .running) := by decide
-- V-R5, U17
theorem test_loadRom :
    (sessionOf (Session.start.apply .loadRomFail)).map (·.machine) = some { State.reset with runState := .halted } ∧
    sessionOf (Session.start.run [.cycle, .loadRom []]) = none := by decide +kernel

/-! ### Witnesses: concrete values that meet the hypotheses of each statement, clause by clause at its boundaries -/

/-- A state at address `a` with the word `op` there. -/
def at_ (a : Nat) (op : Word) : State :=
  { State.reset with pc := BitVec.ofNat 16 a, mem := Memory.writeList [] a (wordBytes op) }

/-- The reset state with `n` stack entries in use. -/
def deep (n : Fin (Config.stackDepth + 1)) : State := { State.reset with sp := n }

/-- The reset state with `I` at `a`. -/
def atI (a : Nat) : State := { State.reset with i := BitVec.ofNat 16 a }

theorem witness_EncodeOfDecodeIsTheWord : decode 0x8F0E = some (.shl 15 0) ∧ decode 0x00EE = some .ret := by decide

theorem witness_StepRunsTheDecodedInstruction :
    let s := at_ 4094 0x1300
    s.runState = .running ∧ s.faultCause = .noFault ∧ s.drawHold = false ∧ s.pc.toNat ≤ 4094 ∧ s.pc.getLsbD 0 = false ∧
      decode (s.readByte s.pc.toNat ++ s.readByte (s.pc.toNat + 1)) = some (.jp 0x300) := by decide

theorem witness_UnrecognisedWordIsANoOp :
    let s := at_ 4094 0x01E0
    s.runState = .running ∧ s.faultCause = .noFault ∧ s.drawHold = false ∧ s.pc.toNat ≤ 4094 ∧ s.pc.getLsbD 0 = false ∧
      decode (s.readByte s.pc.toNat ++ s.readByte (s.pc.toNat + 1)) = none := by decide

theorem witness_ClosedGateChangesNothing :
    State.runState { State.reset with runState := .paused } ≠ .running ∧
    State.runState { State.reset with runState := .halted } ≠ .running ∧
    State.faultCause (State.reset.faulted .stackOverflow 0x2200 0x200) ≠ .noFault ∧
    State.drawHold (State.reset.setDrawHold true) = true := by decide

/-- 4095 is odd and out of range: the first clause; 4093 is the last odd address of the second. -/
theorem witness_FetchFaultsAreRecorded :
    State.reset.runState = .running ∧ State.reset.faultCause = .noFault ∧ State.reset.drawHold = false ∧
    4094 < (at_ 4095 0).pc.toNat ∧ 4094 < (at_ 4096 0).pc.toNat ∧
    (at_ 4093 0).pc.toNat ≤ 4094 ∧ (at_ 4093 0).pc.getLsbD 0 = true := by decide

theorem witness_InstructionsFaultExactlyAsListed :
    expectedFault (deep 12) (.call 0x200) = some (.stackOverflow, 0x200) ∧
    expectedFault (deep 0) .ret = some (.stackUnderflow, 0) ∧
    expectedFault (atI 4095) (.drw 0 1 2) = some (.dataOutOfRange, 4096) ∧
    expectedFault (atI 0xFFFF) (.ldB 0) = some (.dataOutOfRange, 0xFFFF) ∧
    expectedFault (State.setReg State.reset 0 16) (.skp 0) = some (.keyIndexOutOfRange, 16) ∧
    expectedFault (deep 11) (.call 0x200) = none ∧ expectedFault (atI 4095) (.drw 0 1 1) = none ∧
    expectedFault (atI 4093) (.ldB 0) = none ∧ expectedFault (State.setReg State.reset 0 15) (.skp 0) = none := by decide

theorem witness_StorageIsWrittenOnlyByItsInstructions :
    exec (.jp 0x300) State.reset = .next (State.reset.setPc 0x300) ∧ Part.memory ∉ writtenParts (.jp 0x300) :=
  ⟨rfl, by decide⟩

theorem witness_RegistersChangeOnlyAsDestinations :
    exec (.ldImm 3 7) State.reset = .next (State.reset.advance.setReg 3 7) ∧ ¬ destinations (.ldImm 3 7) 4 :=
  ⟨rfl, (by decide : ¬ (4 : Nibble) = 3)⟩

/-- The reset state meets the invariant, whatever the count of draws. -/
theorem reset_inv (n : Nat) : State.Inv { State.reset with draws := n } where
  mem := rfl
  pc := by show (512#16).toNat ≤ _; decide
  stack := fun k _ hk => absurd hk (Nat.not_lt_zero k)
  keyWait := fun h => nomatch h
  faults := ⟨rfl, rfl, rfl⟩

theorem witness_EveryStepKeepsTheInvariant :
    State.Inv { State.reset with draws := 0 } ∧ step { State.reset with draws := 0 } = .next State.reset.advance :=
  ⟨reset_inv 0, rfl⟩

theorem witness_EverySessionKeepsTheInvariant :
    Session.start.Inv ∧ Session.start.run [.keyWrite 3 true, .togglePause] =
      .next { machine := (State.reset.onKeyWrite 3 true).onTogglePause, mayLoad := false } :=
  ⟨⟨reset_inv 0, fun _ => rfl⟩, rfl⟩

theorem witness_OnlyALateLoadIsRefused :
    Session.mayLoad { machine := State.reset, mayLoad := false } = false ∧
    (Event.loadRomFail = .loadRomFail ∨ ∃ bytes, Event.loadRomFail = .loadRom bytes) ∧
    (Event.loadRom [0x13] = .loadRomFail ∨ ∃ bytes, Event.loadRom [0x13] = .loadRom bytes) ∧
    Session.start.mayLoad = true ∧ Event.tick ≠ .loadRomFail ∧ ∀ bytes, Event.tick ≠ .loadRom bytes :=
  ⟨rfl, Or.inl rfl, Or.inr ⟨_, rfl⟩, rfl, by decide, fun _ h => nomatch h⟩

theorem witness_FaultStaysUntilReset :
    let c : Session := { machine := State.reset.faulted .stackUnderflow 0x00EE 0, mayLoad := false }
    c.machine.faultCause ≠ .noFault ∧ Event.cycle ≠ .reset ∧ c.apply .cycle = .next c :=
  ⟨by decide, by decide, rfl⟩

theorem witness_OnlyResetLeavesHalted :
    let c : Session := { machine := State.reset.onQuit, mayLoad := false }
    c.machine.runState = .halted ∧ Event.togglePause ≠ .reset ∧ c.apply .togglePause = .next c :=
  ⟨rfl, by decide, rfl⟩

theorem witness_CallPushesTheReturnAddress :
    (deep 0).sp.val < 12 ∧ (deep 11).sp.val < 12 ∧ (deep 12).sp.val = 12 := by decide

theorem witness_ReturnTakesTheTopEntry : (deep 1).sp.val ≠ 0 ∧ (deep 12).sp.val ≠ 0 ∧ (deep 0).sp.val = 0 := by decide

theorem witness_CallThenReturnComesBack :
    (deep 11).sp.val < 12 ∧ ∃ t, Result.state? (exec (.call 0x300) (deep 11)) = some t ∧
      (t.setReg 3 7).stack = t.stack ∧ (t.setReg 3 7).sp = t.sp := ⟨by decide, _, rfl, rfl, rfl⟩

theorem witness_RegisterSkips : (1 : Nibble) ≠ 0 ∧ (15 : Nibble) ≠ 0 := by decide

/-- `AddRegistersSetsTheCarry`, `SubtractionsSetNoBorrow`, `ShiftsMoveOneBit`: a destination is any register but `VF`, up to 14; `VF` itself falls under the
clause on the flag. -/
theorem witness_destination_not_flag : (0 : Nibble) ≠ 0xF ∧ (14 : Nibble) ≠ 0xF := by decide

theorem witness_DecimalDigitsAreStored :
    Memory.wf (atI 4093).mem = true ∧ (atI 4093).i.toNat + 2 ≤ 4095 ∧ 4095 < (atI 4094).i.toNat + 2 ∧
    4095 < (atI 65535).i.toNat + 2 := by decide

theorem witness_RegistersAreStored :
    Memory.wf (atI 4080).mem = true ∧ (atI 4080).i.toNat + (15 : Nibble).toNat ≤ 4095 ∧
    (atI 4095).i.toNat + (0 : Nibble).toNat ≤ 4095 ∧ 4095 < (atI 4081).i.toNat + (15 : Nibble).toNat ∧
    4095 < (atI 4096).i.toNat + (0 : Nibble).toNat := by decide

theorem witness_RegistersAreLoaded :
    (atI 4080).i.toNat + (15 : Nibble).toNat ≤ 4095 ∧ (atI 4095).i.toNat + (0 : Nibble).toNat ≤ 4095 ∧
    4095 < (atI 4081).i.toNat + (15 : Nibble).toNat ∧ 4095 < (atI 65535).i.toNat + (0 : Nibble).toNat := by decide

theorem witness_StoreThenLoadGivesThePattern :
    Memory.wf (atI 4080).mem = true ∧ (atI 4080).i.toNat + (15 : Nibble).toNat ≤ 4095 ∧
    ∃ t, Result.state? (exec (.stRegs 15) (atI 4080)) = some t ∧
      (t.setI (atI 4080).i).mem = t.mem ∧ (t.setI (atI 4080).i).i = (atI 4080).i := ⟨by decide, by decide, _, rfl, rfl, rfl⟩

/-- The stored bytes are both bytes of the next word, the last one of memory; only its lower byte (the first one stored); only
its upper byte (the last one stored). -/
theorem witness_StoredBytesAreFetched :
    (let s : State := { State.reset with pc := 4092, i := 4094 }
     Memory.wf s.mem = true ∧ s.i.toNat + (1 : Nibble).toNat ≤ 4095 ∧
       ∃ t, Result.state? (exec (.stRegs 1) s) = some t ∧ t.pc.toNat = s.i.toNat + (0 : Nibble).toNat ∧
         t.pc.toNat + 1 = s.i.toNat + (1 : Nibble).toNat) ∧
    (let s : State := { State.reset with pc := 0x200, i := 0x203 }
     ∃ t, Result.state? (exec (.stRegs 0) s) = some t ∧ t.pc.toNat + 1 = s.i.toNat + (0 : Nibble).toNat) ∧
    (let s : State := { State.reset with pc := 4091, i := 4093 }
     Memory.wf s.mem = true ∧ s.i.toNat + 2 ≤ 4095 ∧ ∃ t, Result.state? (exec (.ldB 0) s) = some t ∧
       t.pc.toNat = s.i.toNat + 0 ∧ t.pc.toNat + 1 = s.i.toNat + 1) ∧
    (let s : State := { State.reset with pc := 0x200, i := 0x200 }
     ∃ t, Result.state? (exec (.ldB 0) s) = some t ∧ t.pc.toNat = s.i.toNat + 2) :=
  ⟨⟨rfl, by decide, _, rfl, rfl, rfl⟩, ⟨_, rfl, rfl⟩, ⟨rfl, by decide, _, rfl, rfl, rfl⟩, ⟨_, rfl, rfl⟩⟩

/-- One row at the last byte; two rows there are one too many; at the bottom edge the second is clipped. -/
theorem witness_SpriteIsDrawn :
    let s := atI 4095
    0 = (s.reg 0).toNat % 64 ∧ 0 = (s.reg 1).toNat % 32 ∧ 1 = visibleRows 1 0 ∧ s.i.toNat + 1 - 1 ≤ 4095 ∧
    2 = visibleRows 2 0 ∧ 4095 < s.i.toNat + 2 - 1 ∧
    63 = ((State.setReg s 0 0xFF).reg 0).toNat % 64 ∧ 31 = ((State.setReg s 1 0xFF).reg 1).toNat % 32 ∧
    1 = visibleRows 0 31 ∧ 16 = visibleRows 0 0 := by decide

theorem ack_keeps (t : State) : t.onRedrawAck.mem = t.mem ∧ t.onRedrawAck.i = t.i ∧ t.onRedrawAck.fb = t.fb :=
  ⟨rfl, rfl, rfl⟩

theorem drawn_keeps (s : State) (fb : BitVec Config.fbCells) (b : Byte) (r : Nibble) (h : r ≠ vf) :
    (((s.advance.show fb).setReg vf b).setDrawHold true).onRedrawAck.reg r = s.reg r :=
  (State.reg_setReg (s.advance.show fb) vf r b).trans (if_neg h)

theorem witness_DrawingTwiceRestoresTheScreen :
    let s := data [0xF0] State.reset
    s.faultCause = .noFault ∧ s.fb = 0 ∧ ∃ t, exec (.drw 0 1 1) s = .next t ∧ t.faultCause = .noFault ∧
      t.onRedrawAck.mem = t.mem ∧ t.onRedrawAck.i = t.i ∧ t.onRedrawAck.fb = t.fb ∧
      t.onRedrawAck.reg 0 = s.reg 0 ∧ t.onRedrawAck.reg 1 = s.reg 1 :=
  ⟨rfl, rfl, _, exec_drw_inside 0 1 1 _ (by decide), rfl, (ack_keeps _).1, (ack_keeps _).2.1, (ack_keeps _).2.2,
    drawn_keeps _ _ _ 0 (by decide), drawn_keeps _ _ _ 1 (by decide)⟩

theorem witness_DrawHoldsTheEngineUntilATick :
    let s := data [0xF0] State.reset
    s.runState = .running ∧ s.faultCause = .noFault ∧ ∃ t, exec (.drw 0 1 1) s = .next t ∧ t.faultCause = .noFault :=
  ⟨rfl, rfl, _, rfl, rfl⟩

theorem witness_KeySkips :
    ((State.setReg State.reset 4 15).reg 4).toNat ≤ 15 ∧ 15 < ((State.setReg State.reset 4 16).reg 4).toNat ∧
    15 < ((State.setReg State.reset 4 255).reg 4).toNat := by decide

theorem witness_KeyWaitTransitions :
    (State.reset.kwActive = false ∧ ∀ k, k < 16 → State.reset.key.getLsbD k = false) ∧
    (let s : State := { State.reset with key := 0x8000 }
     s.kwActive = false ∧ s.key.getLsbD (15 : Nibble).toNat = true ∧
       ∀ j, j < (15 : Nibble).toNat → s.key.getLsbD j = false) ∧
    (let s : State := { State.reset with key := 1, kwActive := true }
     s.kwActive = true ∧ s.key.getLsbD s.kwKey.toNat = true) ∧
    (let s : State := { State.reset with key := 1, kwActive := true, kwKey := 15 }
     s.kwActive = true ∧ s.key.getLsbD s.kwKey.toNat = false) := by decide

theorem witness_NoInstructionReadsSoundOrRedraw : exec (.ldVxDt 0) State.reset = .next (State.reset.advance.setReg 0 0) :=
  rfl

theorem witness_TickCountsDown :
    (State.reset.runState = .running ∧ State.reset.faultCause = .noFault) ∧
    State.reset.onTogglePause.runState ≠ .running ∧
    (State.reset.faulted .fetchOutOfRange 0 0x1000).faultCause ≠ .noFault := by decide

theorem witness_TimerReachesZeroAfterItsTicks :
    (State.reset.setDt 255).runState = .running ∧ (State.reset.setDt 255).faultCause = .noFault := by decide

theorem witness_KeyWriteSetsItsKeyAndNoStepWritesTheLatch :
    (14 : Nibble) ≠ 15 ∧ (1 : Nibble) ≠ 0 ∧ step State.reset = .next State.reset.advance := ⟨by decide, by decide, rfl⟩

theorem witness_LatchChangesOnlyByKeyWriteAndReset :
    (∀ k b, Event.loadRomFail ≠ .keyWrite k b) ∧ Event.loadRomFail ≠ .reset ∧
    Session.start.apply .loadRomFail = .next { machine := State.reset.onLoadRomFail, mayLoad := false } :=
  ⟨fun _ _ h => (nomatch h), by decide, rfl⟩

/-- The last byte of the font, the first byte after it and the last byte of memory. -/
theorem witness_ResetLeavesTheListedValues : 79 < 80 ∧ 80 ≤ 80 ∧ 80 ≤ 4095 ∧ 4095 ≤ 4095 := by decide

theorem witness_RomIsLoadedVerbatim :
    Session.start.mayLoad = true ∧ Memory.wf Session.start.machine.mem = true ∧
    (List.replicate 3584 (0xAA : Byte)).length ≤ 3584 ∧ 3584 < (List.replicate 3585 (0xAA : Byte)).length :=
  ⟨rfl, rfl, by rw [List.length_replicate], by rw [List.length_replicate]; decide⟩

theorem witness_SelfJumpIsQuiescent : (at_ 0x20C 0x120C).selfJump := by
  unfold State.selfJump; decide

theorem witness_APlacedInstructionRuns : Memory.wf State.reset.mem = true := rfl

end Sys2Proof.Tests
end

section
/-! PROOFS. The fetch of an unrecognised word (spec/30_encoding.md R66). -/

namespace Sys2Proof.Machine

/-- An even `pc` at most 4094 passes both fetch checks (R42). -/
theorem fetchFault_eq_none {pc : Word} (hpc : pc.toNat ≤ 4094) (heven : pc.getLsbD 0 = false) :
    fetchFault pc = none := by
  rcases fetchFault_cases pc with ⟨hout, _⟩ | ⟨_, hodd, _⟩ | ⟨_, _, hnone⟩
  · omega
  · rw [heven] at hodd; contradiction
  · exact hnone

/-- With the gate open and `pc` fetchable, an unrecognised word is only the advance by 2 (R66). -/
theorem step_unrecognised {s : State} (hopen : s.open = true) (hfetch : fetchFault s.pc = none)
    (hword : decode s.fetchWord = none) : step s = .next s.advance := by
  rw [step_runWord s hopen hfetch, runWord, hword]

/-- From a fetchable address the advance does not wrap (R13). -/
theorem State.advance_pc_toNat {s : State} (hpc : s.pc.toNat ≤ 4094) :
    s.advance.pc.toNat = s.pc.toNat + 2 := by
  rw [State.advance_pc]
  bv_omega

/-- The advance leaves everything but `pc` as it was. -/
theorem State.frame_advance (s : State) : Frame noReg [] s s.advance where
  regs r _ := s.advance_reg r
  parts p _ := (Part.same_advance s s p).mpr (Part.same_refl s p)
  key := s.advance_key
  runState := s.advance_runState
  faults := ⟨s.advance_faultCause, s.advance_faultPc, s.advance_faultOp, s.advance_faultInfo⟩

/-- Settles O9: the step is the advance alone, which does not wrap and changes nothing but `pc`. -/
theorem unrecognisedWordIsANoOp : Obligations.UnrecognisedWordIsANoOp := by
  intro s hrun hfault hhold hpc heven hword
  have hopen : s.open = true := s.open_iff.mpr ⟨hrun, hfault, hhold⟩
  have hfetch : fetchFault s.pc = none := fetchFault_eq_none hpc heven
  exact ⟨s.advance, step_unrecognised hopen hfetch hword, State.advance_pc_toNat hpc, s.frame_advance⟩

end Sys2Proof.Machine
end

section
/-! PROOFS. The skips on a comparison (spec/40_control_flow.md R83 to R87). -/

namespace Sys2Proof.Machine

/-! ### The words of the four instructions (spec/30_encoding.md R62, R65) -/

theorem decode_seImm (x : Nibble) (nn : Byte) : decode (0x3#4 ++ x ++ nn) = some (.seImm x nn) := by
  simp [decode, Laws.fieldFam_immediate, Laws.fieldX_immediate, Laws.fieldNN_immediate]

theorem decode_sneImm (x : Nibble) (nn : Byte) : decode (0x4#4 ++ x ++ nn) = some (.sneImm x nn) := by
  simp [decode, Laws.fieldFam_immediate, Laws.fieldX_immediate, Laws.fieldNN_immediate]

/-- Family 5 is `SE Vx, Vy` with `N = 0` and nothing otherwise (R67). -/
theorem decode_family5 (x y n : Nibble) :
    decode (0x5#4 ++ x ++ y ++ n) = if n = 0 then some (.seReg x y) else none := by
  simp [decode, Laws.fieldFam_registers, Laws.fieldX_registers, Laws.fieldY_registers, Laws.fieldN_registers]

/-- Family 9 is `SNE Vx, Vy` with `N = 0` and nothing otherwise (R67). -/
theorem decode_family9 (x y n : Nibble) :
    decode (0x9#4 ++ x ++ y ++ n) = if n = 0 then some (.sneReg x y) else none := by
  simp [decode, Laws.fieldFam_registers, Laws.fieldX_registers, Laws.fieldY_registers, Laws.fieldN_registers]

/-! ### A skip is a move of `pc` alone (R87) -/

/-- Setting `pc` leaves everything else as it was. -/
theorem State.frame_setPc (s : State) (w : Word) : Frame noReg [] s (s.setPc w) where
  regs r _ := s.setPc_reg w r
  parts p _ := (Part.same_setPc s s w p).mpr (Part.same_refl s p)
  key := s.setPc_key w
  runState := s.setPc_runState w
  faults := ⟨s.setPc_faultCause w, s.setPc_faultPc w, s.setPc_faultOp w, s.setPc_faultInfo w⟩

theorem State.frame_skipIf (s : State) (c : Bool) : Frame noReg [] s (s.skipIf c) := by
  rw [State.skipIf_eq]
  exact s.frame_setPc _

@[simp] theorem State.skipIf_pc (s : State) (c : Bool) : (s.skipIf c).pc = s.pc + if c then 4 else 2 := by
  rw [State.skipIf_eq, State.setPc_pc]
  cases c <;> rfl

/-- A skip on `a = b`, with the comparison made on the values. -/
theorem State.skipIf_beq_pc (s : State) (a b : Byte) :
    (s.skipIf (a == b)).pc = s.pc + if a.toNat = b.toNat then 4 else 2 := by
  simp only [State.skipIf_pc, beq_iff_eq, BitVec.toNat_inj]

/-- A skip on `a ≠ b`, with the comparison made on the values. -/
theorem State.skipIf_bne_pc (s : State) (a b : Byte) :
    (s.skipIf (a != b)).pc = s.pc + if a.toNat = b.toNat then 2 else 4 := by
  simp only [State.skipIf_pc, bne_iff_ne, BitVec.toNat_inj, ite_not]

/-! ### The meanings (R83 to R86) -/

theorem exec_seImm (x : Nibble) (nn : Byte) (s : State) :
    exec (.seImm x nn) s = .next (s.skipIf (s.reg x == nn)) := rfl

theorem exec_sneImm (x : Nibble) (nn : Byte) (s : State) :
    exec (.sneImm x nn) s = .next (s.skipIf (s.reg x != nn)) := rfl

theorem exec_seReg (x y : Nibble) (s : State) :
    exec (.seReg x y) s = .next (s.skipIf (s.reg x == s.reg y)) := rfl

theorem exec_sneReg (x y : Nibble) (s : State) :
    exec (.sneReg x y) s = .next (s.skipIf (s.reg x != s.reg y)) := rfl

/-- Settles O26: both meanings are a skip on the comparison with the immediate, and a skip moves `pc` alone. -/
theorem immediateSkips : Obligations.ImmediateSkips := by
  intro x nn s
  refine ⟨decode_seImm x nn, decode_sneImm x nn, ?equal, ?differ⟩
  case equal => exact ⟨_, exec_seImm x nn s, s.skipIf_beq_pc _ _, s.frame_skipIf _⟩
  case differ => exact ⟨_, exec_sneImm x nn s, s.skipIf_bne_pc _ _, s.frame_skipIf _⟩

/-- Settles O27: both meanings are a skip on the comparison of the registers, and families 5 and 9 have no other
instruction. -/
theorem registerSkips : Obligations.RegisterSkips := by
  intro x y s
  refine ⟨(decode_family5 x y 0).trans (if_pos rfl), (decode_family9 x y 0).trans (if_pos rfl),
    ?unrecognised, ?equal, ?differ⟩
  case unrecognised =>
    intro n hn
    exact ⟨(decode_family5 x y n).trans (if_neg hn), (decode_family9 x y n).trans (if_neg hn)⟩
  case equal => exact ⟨_, exec_seReg x y s, s.skipIf_beq_pc _ _, s.frame_skipIf _⟩
  case differ => exact ⟨_, exec_sneReg x y s, s.skipIf_bne_pc _ _, s.frame_skipIf _⟩

end Sys2Proof.Machine
end

section
/-! PROOFS. The loads, the arithmetic and the logic (spec/41_load_alu.md R100 to R107, R109). -/

namespace Sys2Proof.Machine

/-! ### The words (spec/30_encoding.md R62, R65) -/

theorem decode_ldImm (x : Nibble) (nn : Byte) : decode (0x6#4 ++ x ++ nn) = some (.ldImm x nn) := by
  simp [decode, Laws.fieldFam_immediate, Laws.fieldX_immediate, Laws.fieldNN_immediate]

theorem decode_addImm (x : Nibble) (nn : Byte) : decode (0x7#4 ++ x ++ nn) = some (.addImm x nn) := by
  simp [decode, Laws.fieldFam_immediate, Laws.fieldX_immediate, Laws.fieldNN_immediate]

/-- Family 8 is dispatched on its function nibble. -/
theorem decode_family8 (x y n : Nibble) : decode (0x8#4 ++ x ++ y ++ n) = decodeFamily8 x y n := by
  simp [decode, Laws.fieldFam_registers, Laws.fieldX_registers, Laws.fieldY_registers, Laws.fieldN_registers]

/-! ### The computations as numbers -/

theorem toNat_sumByte (a b : Byte) : (sumByte a b).toNat = (a.toNat + b.toNat) % 256 := by
  rw [sumByte, BitVec.toNat_ofNat, Nat.mod_mod]

/-- The byte difference is the integer difference modulo 256. -/
theorem toNat_diffByte (a b : Byte) : ((diffByte a b).toNat : Int) = (a.toNat - b.toNat : Int) % 256 := by
  have hb : b.toNat < 256 := b.isLt
  rw [diffByte, BitVec.toNat_ofNat, Nat.mod_mod]
  omega

theorem toNat_flagByte_decide (p : Prop) [Decidable p] :
    (flagByte (decide p)).toNat = if p then 1 else 0 := by
  by_cases hp : p <;> simp [flagByte, hp]

/-! ### Result first, flag last (R11, R113) -/

/-- The flag is what `VF` holds afterwards, also when `VF` is the destination. -/
@[simp] theorem State.setResultFlag_flag (s : State) (x : Nibble) (b : Byte) (f : Bool) :
    (s.setResultFlag x b f).reg 0xF = flagByte f :=
  State.reg_setReg_same _ vf _

/-- A destination other than `VF` keeps the result. -/
theorem State.setResultFlag_result (s : State) {x : Nibble} (hx : x ≠ 0xF) (b : Byte) (f : Bool) :
    (s.setResultFlag x b f).reg x = b := by
  rw [State.setResultFlag, State.reg_setReg, vf, if_neg hx, State.reg_setReg_same]

/-! ### Frames of a register write -/

theorem Frame.mono {regs regs' : Nibble → Prop} {parts : List Part} {s t : State}
    (h : Frame regs parts s t) (hsub : ∀ r, regs r → regs' r) : Frame regs' parts s t where
  regs r hr := h.regs r (mt (hsub r) hr)
  parts := h.parts
  key := h.key
  runState := h.runState
  faults := h.faults

/-- A write to a register the frame already exempts stays inside the frame. -/
theorem Frame.setReg {regs : Nibble → Prop} {parts : List Part} {s t : State} {x : Nibble}
    (h : Frame regs parts s t) (hx : regs x) (b : Byte) : Frame regs parts s (t.setReg x b) where
  regs r hr := by
    have hne : r ≠ x := fun heq => hr (heq ▸ hx)
    rw [State.reg_setReg, if_neg hne]
    exact h.regs r hr
  parts p hp := (Part.same_setReg s t x b p).mpr (h.parts p hp)
  key := h.key
  runState := h.runState
  faults := h.faults

theorem State.frame_advance_setReg (s : State) (x : Nibble) (b : Byte) :
    Frame (onlyReg x) [] s (s.advance.setReg x b) := by
  have hadvance : Frame (onlyReg x) [] s s.advance := s.frame_advance.mono fun _ => False.elim
  exact hadvance.setReg rfl b

theorem State.frame_advance_setResultFlag (s : State) (x : Nibble) (b : Byte) (f : Bool) :
    Frame (regAndFlag x) [] s (s.advance.setResultFlag x b f) := by
  have hresult : Frame (regAndFlag x) [] s (s.advance.setReg x b) :=
    (s.frame_advance_setReg x b).mono fun _ => Or.inl
  exact hresult.setReg (x := vf) (Or.inr rfl) (flagByte f)

/-! ### The meanings (R100 to R107, R109) -/

theorem exec_ldImm (x : Nibble) (nn : Byte) (s : State) :
    exec (.ldImm x nn) s = .next (s.advance.setReg x nn) := rfl

theorem exec_addImm (x : Nibble) (nn : Byte) (s : State) :
    exec (.addImm x nn) s = .next (s.advance.setReg x (sumByte (s.reg x) nn)) := rfl

theorem exec_ldReg (x y : Nibble) (s : State) :
    exec (.ldReg x y) s = .next (s.advance.setReg x (s.reg y)) := rfl

theorem exec_orReg (x y : Nibble) (s : State) :
    exec (.orReg x y) s = .next (s.advance.setReg x (s.reg x ||| s.reg y)) := rfl

theorem exec_andReg (x y : Nibble) (s : State) :
    exec (.andReg x y) s = .next (s.advance.setReg x (s.reg x &&& s.reg y)) := rfl

theorem exec_xorReg (x y : Nibble) (s : State) :
    exec (.xorReg x y) s = .next (s.advance.setReg x (s.reg x ^^^ s.reg y)) := rfl

theorem exec_addReg (x y : Nibble) (s : State) : exec (.addReg x y) s =
    .next (s.advance.setResultFlag x (sumByte (s.reg x) (s.reg y)) (carryOut (s.reg x) (s.reg y))) := rfl

theorem exec_sub (x y : Nibble) (s : State) : exec (.sub x y) s =
    .next (s.advance.setResultFlag x (diffByte (s.reg x) (s.reg y)) (noBorrow (s.reg x) (s.reg y))) := rfl

theorem exec_subn (x y : Nibble) (s : State) : exec (.subn x y) s =
    .next (s.advance.setResultFlag x (diffByte (s.reg y) (s.reg x)) (noBorrow (s.reg y) (s.reg x))) := rfl

/-- An instruction that writes one register and advances: what it leaves there, `pc`, and the frame. -/
theorem exec_writes_reg {i : Instr} {s : State} {x : Nibble} {b : Byte}
    (h : exec i s = .next (s.advance.setReg x b)) :
    ∃ t, exec i s = .next t ∧ t.reg x = b ∧ t.pc = s.pc + 2 ∧ Frame (onlyReg x) [] s t :=
  ⟨_, h, s.advance.reg_setReg_same x b, s.advance_pc, s.frame_advance_setReg x b⟩

/-- An instruction that writes a result, then a flag, and advances: the two registers, `pc`, and the frame. -/
theorem exec_writes_result_flag {i : Instr} {s : State} {x : Nibble} {b : Byte} {f : Bool}
    (h : exec i s = .next (s.advance.setResultFlag x b f)) :
    ∃ t, exec i s = .next t ∧ (x ≠ 0xF → t.reg x = b) ∧ t.reg 0xF = flagByte f ∧ t.pc = s.pc + 2 ∧
      Frame (regAndFlag x) [] s t :=
  ⟨_, h, fun hx => s.advance.setResultFlag_result hx b f, s.advance.setResultFlag_flag x b f, s.advance_pc,
    s.frame_advance_setResultFlag x b f⟩

/-- An instruction whose result is a byte difference and whose flag says that no borrow occurred (R107, R109). -/
theorem exec_writes_difference {i : Instr} {s : State} {x : Nibble} {a b : Byte}
    (h : exec i s = .next (s.advance.setResultFlag x (diffByte a b) (noBorrow a b))) :
    ∃ t, exec i s = .next t ∧ (x ≠ 0xF → ((t.reg x).toNat : Int) = (a.toNat - b.toNat : Int) % 256) ∧
      (t.reg 0xF).toNat = (if a.toNat ≥ b.toNat then 1 else 0) ∧ t.pc = s.pc + 2 ∧
      Frame (regAndFlag x) [] s t := by
  obtain ⟨t, hexec, hresult, hflag, hpc, hframe⟩ := exec_writes_result_flag h
  refine ⟨t, hexec, fun hx => ?difference, ?noBorrow, hpc, hframe⟩
  case difference => rw [hresult hx, toNat_diffByte]
  case noBorrow => rw [hflag, noBorrow, toNat_flagByte_decide]

/-- Settles O29: both loads write one register and advance. -/
theorem loadsSetTheDestination : Obligations.LoadsSetTheDestination := by
  intro x y nn s
  exact ⟨decode_ldImm x nn, (decode_family8 x y 0).trans rfl,
    exec_writes_reg (exec_ldImm x nn s), exec_writes_reg (exec_ldReg x y s)⟩

/-- Settles O30: the one register written holds `sumByte`, which is the sum modulo 256. -/
theorem addImmediateWraps : Obligations.AddImmediateWraps := by
  intro x nn s
  obtain ⟨t, hexec, hresult, hpc, hframe⟩ := exec_writes_reg (exec_addImm x nn s)
  refine ⟨decode_addImm x nn, t, hexec, ?_, hpc, hframe⟩
  rw [hresult, toNat_sumByte]

/-- Settles O31: each operation writes one register, and the operations on bit vectors act bit by bit. -/
theorem logicActsBitwise : Obligations.LogicActsBitwise := by
  intro x y s
  refine ⟨(decode_family8 x y 1).trans rfl, (decode_family8 x y 2).trans rfl, (decode_family8 x y 3).trans rfl,
    ?or, ?and, ?xor⟩
  case or =>
    obtain ⟨t, hexec, hresult, hrest⟩ := exec_writes_reg (exec_orReg x y s)
    exact ⟨t, hexec, fun k => by rw [hresult, BitVec.getLsbD_or], hrest⟩
  case and =>
    obtain ⟨t, hexec, hresult, hrest⟩ := exec_writes_reg (exec_andReg x y s)
    exact ⟨t, hexec, fun k => by rw [hresult, BitVec.getLsbD_and], hrest⟩
  case xor =>
    obtain ⟨t, hexec, hresult, hrest⟩ := exec_writes_reg (exec_xorReg x y s)
    exact ⟨t, hexec, fun k => by rw [hresult, BitVec.getLsbD_xor], hrest⟩

/-- Settles O32: the result is `sumByte` and the flag `carryOut`, both of the registers before the step. -/
theorem addRegistersSetsTheCarry : Obligations.AddRegistersSetsTheCarry := by
  intro x y s
  obtain ⟨t, hexec, hresult, hflag, hpc, hframe⟩ := exec_writes_result_flag (exec_addReg x y s)
  refine ⟨(decode_family8 x y 4).trans rfl, t, hexec, fun hx => ?sum, ?carry, hpc, hframe⟩
  case sum => rw [hresult hx, toNat_sumByte]
  case carry => rw [hflag, carryOut, toNat_flagByte_decide]

/-- Settles O33: `SUB` and `SUBN` write the difference of the same registers, in the two directions. -/
theorem subtractionsSetNoBorrow : Obligations.SubtractionsSetNoBorrow := by
  intro x y s
  exact ⟨(decode_family8 x y 5).trans rfl, (decode_family8 x y 7).trans rfl,
    exec_writes_difference (exec_sub x y s), exec_writes_difference (exec_subn x y s)⟩

end Sys2Proof.Machine
end

section
/-! PROOFS. The load of the index register (spec/42_index_memory.md R120). -/

namespace Sys2Proof.Machine

theorem decode_ldI (nnn : Addr) : decode (0xA#4 ++ nnn) = some (.ldI nnn) := by
  simp [decode, Laws.fieldFam_address, Laws.fieldNNN_address]

/-- Zero-extension keeps the value, so the upper four bits are 0 (R120). -/
theorem toNat_addrWord (nnn : Addr) : (addrWord nnn).toNat = nnn.toNat :=
  BitVec.toNat_setWidth_of_le (by decide)

/-- A write to `I`, where the frame already exempts the index, stays inside the frame. -/
theorem Frame.setI {regs : Nibble → Prop} {parts : List Part} {s t : State}
    (h : Frame regs parts s t) (hindex : .index ∈ parts) (w : Word) : Frame regs parts s (t.setI w) where
  regs := h.regs
  parts p hp := by
    have hne : p ≠ .index := fun heq => hp (heq ▸ hindex)
    exact (Part.same_setI s t w p hne).mpr (h.parts p hp)
  key := h.key
  runState := h.runState
  faults := h.faults

/-- The advance, then a write to `I`: nothing but `pc` and the index changes. -/
theorem State.frame_advance_setI (s : State) (w : Word) : Frame noReg [.index] s (s.advance.setI w) := by
  have hadvance : Frame noReg [.index] s s.advance :=
    { s.frame_advance with parts := fun p _ => s.frame_advance.parts p List.not_mem_nil }
  exact hadvance.setI (List.mem_singleton_self _) w

theorem exec_ldI (nnn : Addr) (s : State) :
    exec (.ldI nnn) s = .next (s.advance.setI (addrWord nnn)) := rfl

/-- An instruction that writes the index register and advances: what it leaves there, `pc`, and the frame. -/
theorem exec_writes_index {i : Instr} {s : State} {w : Word} (h : exec i s = .next (s.advance.setI w)) :
    ∃ t, exec i s = .next t ∧ t.i = w ∧ t.pc = s.pc + 2 ∧ Frame noReg [.index] s t :=
  ⟨_, h, s.advance.setI_i w, s.advance_pc, s.frame_advance_setI w⟩

/-- Settles O36: the index register alone is written, with the zero-extended address. -/
theorem loadIndex : Obligations.LoadIndex := by
  intro nnn s
  obtain ⟨t, hexec, hindex, hpc, hframe⟩ := exec_writes_index (exec_ldI nnn s)
  refine ⟨decode_ldI nnn, t, hexec, ?_, hpc, hframe⟩
  rw [hindex, toNat_addrWord]

end Sys2Proof.Machine
end

section
/-! PROOFS. The clear of the display (spec/43_display.md R130). -/

namespace Sys2Proof.Machine

theorem decode_cls : decode 0x00E0 = some .cls := by decide

/-- A frame that leaves fewer parts free gives every frame that leaves more of them free. -/
theorem Frame.mono_parts {regs : Nibble → Prop} {parts parts' : List Part} {s t : State}
    (h : Frame regs parts s t) (hsub : parts ⊆ parts') : Frame regs parts' s t where
  regs := h.regs
  parts p hp := h.parts p fun hmem => hp (hsub hmem)
  key := h.key
  runState := h.runState
  faults := h.faults

/-- A new framebuffer, where the frame already exempts the display, stays inside the frame. -/
theorem Frame.show {regs : Nibble → Prop} {parts : List Part} {s t : State} (h : Frame regs parts s t)
    (hdisplay : .display ∈ parts) (fb : BitVec Config.fbCells) : Frame regs parts s (t.show fb) where
  regs := h.regs
  parts p hp := by
    have hne : p ≠ .display := fun heq => hp (heq ▸ hdisplay)
    exact (Part.same_show s t fb p hne).mpr (h.parts p hp)
  key := h.key
  runState := h.runState
  faults := h.faults

/-- The advance, then a new framebuffer: nothing but `pc` and the display changes, so neither `VF` nor the draw hold. -/
theorem State.frame_advance_show (s : State) (fb : BitVec Config.fbCells) :
    Frame noReg [.display] s (s.advance.show fb) :=
  (s.frame_advance.mono_parts (List.nil_subset _)).show (List.mem_singleton_self _) fb

/-- `CLS` shows the blank framebuffer, with no test of what was there before (R130). -/
theorem exec_cls (s : State) : exec .cls s = .next (s.advance.show 0) := rfl

/-- Settles O43: the framebuffer shown is zero, showing it sets `redraw`, and only `pc` and the display change. -/
theorem clearScreen : Obligations.ClearScreen := by
  refine ⟨decode_cls, fun s => ?_⟩
  refine ⟨_, exec_cls s, ?clear, s.advance.show_redraw 0, s.advance_pc, s.frame_advance_show 0⟩
  case clear =>
    intro k
    rw [State.show_fb]
    exact BitVec.getLsbD_zero

end Sys2Proof.Machine
end

section
/-! PROOFS. The keypad latch (spec/60_exceptions.md R168): `KeyWrite` writes one key of it, and a step writes none. -/

namespace Sys2Proof.Machine

/-! ### `KeyWrite` -/

/-- The latch after `KeyWrite(k, b)`, read at any key. -/
theorem State.keyDown_onKeyWrite (s : State) (k j : Nibble) (b : Bool) :
    (s.onKeyWrite k b).keyDown j = if j = k then b else s.keyDown j := by
  have hj : j.toNat < Config.nKeys := j.isLt
  by_cases h : j = k
  · subst h
    rw [if_pos rfl]
    cases b <;> simp [State.onKeyWrite, State.keyDown, hj]
  · have hne : j.toNat ≠ k.toNat := mt BitVec.eq_of_toNat_eq h
    rw [if_neg h]
    cases b <;> simp [State.onKeyWrite, State.keyDown, hj, hne]

/-- `KeyWrite` changes nothing but the latch. -/
theorem State.onKeyWrite_eq (s : State) (k : Nibble) (b : Bool) :
    s.onKeyWrite k b = { s with key := (s.onKeyWrite k b).key } := rfl

/-- The session accepts `KeyWrite` whatever its machine's lifecycle state and fault record. -/
theorem Session.apply_keyWrite (c : Session) (k : Nibble) (b : Bool) :
    c.apply (.keyWrite k b) = .next { machine := c.machine.onKeyWrite k b, mayLoad := false } := rfl

/-! ### The operations that branch leave the latch -/

@[simp] theorem State.skipIf_key (s : State) (c : Bool) : (s.skipIf c).key = s.key := (s.frame_skipIf c).key

@[simp] theorem State.skipOnKey_key (s : State) (op : Word) (b : Byte) (down : Bool) :
    (s.skipOnKey op b down).key = s.key := by
  by_cases hb : b.toNat ≤ 15
  · rw [State.skipOnKey_inside s op b down hb, State.setPc_key]
  · rw [State.skipOnKey_outside s op b down (by omega), State.raise_key]

/-- A data access leaves the latch if the finished instruction does: its fault does not touch it. -/
theorem State.access_keeps_key {s t done : State} {op : Word} {n : Nat} (h : s.access op n done = .next t)
    (hdone : done.key = s.key) : t.key = s.key := by
  rcases State.access_cases s t op n done h with ⟨_, rfl⟩ | ⟨_, rfl⟩
  · exact hdone
  · rfl

theorem exec_call_keeps_key {nnn : Addr} {s t : State} (h : exec (.call nnn) s = .next t) : t.key = s.key := by
  rcases exec_call_cases nnn s t h with ⟨_, rfl⟩ | ⟨_, rfl⟩ <;> rfl

theorem exec_ret_keeps_key {s t : State} (h : exec .ret s = .next t) : t.key = s.key := by
  rcases exec_ret_cases s t h with ⟨_, _, _, rfl⟩ | ⟨_, rfl⟩ <;> rfl

/-- The key-wait reads the latch in each of its four transitions (R146) and writes it in none. -/
theorem exec_ldVxK_keeps_key {x : Nibble} {s t : State} (h : exec (.ldVxK x) s = .next t) : t.key = s.key := by
  simp only [exec, execLdVxK] at h
  split at h
  · split at h <;> cases h <;> rfl
  · split at h <;> cases h <;> rfl

/-! ### Every instruction, and every step -/

/-- No instruction writes the keypad latch, whether it completes or faults (R19). -/
theorem exec_keeps_key {i : Instr} {s t : State} (h : exec i s = .next t) : t.key = s.key := by
  cases i with
  | ret => exact exec_ret_keeps_key h
  | call nnn => exact exec_call_keeps_key h
  | ldVxK x => exact exec_ldVxK_keeps_key h
  | drw x y n | ldB x | stRegs x | ldRegs x => exact State.access_keeps_key h rfl
  | seImm x nn | sneImm x nn | seReg x y | sneReg x y => cases h; exact s.skipIf_key _
  | skp x | sknp x => cases h; exact s.skipOnKey_key _ _ _
  | cls | jp nnn | jpV0 nnn | ldI nnn | ldImm x nn | addImm x nn | rnd x nn | ldReg x y | orReg x y | andReg x y
  | xorReg x y | addReg x y | sub x y | subn x y | shr x y | shl x y | ldVxDt x | ldDtVx x | ldStVx x | addI x
  | ldF x => cases h; rfl

/-- A step leaves the latch on each of its four ways: gate closed, fetch fault, unrecognised word, instruction. -/
theorem step_keeps_key {s t : State} (h : step s = .next t) : t.key = s.key := by
  rcases step_cases s with ⟨_, hstep⟩ | ⟨_, _, _, hstep⟩ | ⟨_, _, _, hstep⟩ | ⟨_, _, i, _, hstep⟩
  · cases hstep.symm.trans h; rfl
  · cases hstep.symm.trans h; rfl
  · cases hstep.symm.trans h; rfl
  · exact exec_keeps_key (hstep.symm.trans h)

/-- Settles O53: `KeyWrite` is the write of one bit of the latch alone, and no step writes the latch. -/
theorem keyWriteSetsItsKeyAndNoStepWritesTheLatch : Obligations.KeyWriteSetsItsKeyAndNoStepWritesTheLatch := by
  refine ⟨fun c k b => ⟨_, c.apply_keyWrite k b, ?own, ?others, c.machine.onKeyWrite_eq k b⟩, fun _ _ => step_keeps_key⟩
  case own => exact (c.machine.keyDown_onKeyWrite k k b).trans (if_pos rfl)
  case others => exact fun j hj => (c.machine.keyDown_onKeyWrite k j b).trans (if_neg hj)

end Sys2Proof.Machine
end

section
/-! PROOFS. The encoder and the decoder (spec/30_encoding.md R60 to R68). -/

namespace Sys2Proof.Machine

/-! ### The words of the remaining instructions, family by family (R62, R65) -/

theorem decode_ret : decode 0x00EE = some .ret := by decide

theorem decode_jp (nnn : Addr) : decode (0x1#4 ++ nnn) = some (.jp nnn) := by
  simp [decode, Laws.fieldFam_address, Laws.fieldNNN_address]

theorem decode_call (nnn : Addr) : decode (0x2#4 ++ nnn) = some (.call nnn) := by
  simp [decode, Laws.fieldFam_address, Laws.fieldNNN_address]

theorem decode_jpV0 (nnn : Addr) : decode (0xB#4 ++ nnn) = some (.jpV0 nnn) := by
  simp [decode, Laws.fieldFam_address, Laws.fieldNNN_address]

theorem decode_rnd (x : Nibble) (nn : Byte) : decode (0xC#4 ++ x ++ nn) = some (.rnd x nn) := by
  simp [decode, Laws.fieldFam_immediate, Laws.fieldX_immediate, Laws.fieldNN_immediate]

theorem decode_drw (x y n : Nibble) : decode (0xD#4 ++ x ++ y ++ n) = some (.drw x y n) := by
  simp [decode, Laws.fieldFam_registers, Laws.fieldX_registers, Laws.fieldY_registers, Laws.fieldN_registers]

/-- Family E is dispatched on its function byte. -/
theorem decode_familyE (x : Nibble) (nn : Byte) : decode (0xE#4 ++ x ++ nn) = decodeFamilyE x nn := by
  simp [decode, Laws.fieldFam_immediate, Laws.fieldX_immediate, Laws.fieldNN_immediate]

/-- Family F is dispatched on its function byte. -/
theorem decode_familyF (x : Nibble) (nn : Byte) : decode (0xF#4 ++ x ++ nn) = decodeFamilyF x nn := by
  simp [decode, Laws.fieldFam_immediate, Laws.fieldX_immediate, Laws.fieldNN_immediate]

/-- Settles O1: the fields of an encoded word are the operands, and the dispatch finds its family and function. -/
theorem decodeOfEncodeIsTheInstruction : Obligations.DecodeOfEncodeIsTheInstruction := by
  intro i
  cases i with
  | cls => exact decode_cls
  | ret => exact decode_ret
  | jp nnn => exact decode_jp nnn
  | call nnn => exact decode_call nnn
  | seImm x nn => exact decode_seImm x nn
  | sneImm x nn => exact decode_sneImm x nn
  | seReg x y => exact decode_family5 x y 0
  | ldImm x nn => exact decode_ldImm x nn
  | addImm x nn => exact decode_addImm x nn
  | ldReg x y | orReg x y | andReg x y | xorReg x y | addReg x y | sub x y | shr x y | subn x y | shl x y =>
    exact decode_family8 x y _
  | sneReg x y => exact decode_family9 x y 0
  | ldI nnn => exact decode_ldI nnn
  | jpV0 nnn => exact decode_jpV0 nnn
  | rnd x nn => exact decode_rnd x nn
  | drw x y n => exact decode_drw x y n
  | skp x | sknp x => exact decode_familyE x _
  | ldVxDt x | ldVxK x | ldDtVx x | ldStVx x | addI x | ldF x | ldB x | stRegs x | ldRegs x =>
    exact decode_familyF x _

/-! ### Back from the instruction to the word -/

theorem encode_of_decodeFamily0 {op : Word} {i : Instr} (h : decodeFamily0 op = some i) : encode i = op := by
  unfold decodeFamily0 at h
  split_ifs at h with hcls hret <;> cases h
  · exact hcls.symm
  · exact hret.symm

theorem encode_of_decodeFamily8 {x y n : Nibble} {i : Instr} (h : decodeFamily8 x y n = some i) :
    encode i = 0x8#4 ++ x ++ y ++ n := by
  unfold decodeFamily8 at h
  split_ifs at h <;> cases h <;> subst n <;> rfl

theorem encode_of_decodeFamilyE {x : Nibble} {nn : Byte} {i : Instr} (h : decodeFamilyE x nn = some i) :
    encode i = 0xE#4 ++ x ++ nn := by
  unfold decodeFamilyE at h
  split_ifs at h <;> cases h <;> subst nn <;> rfl

theorem encode_of_decodeFamilyF {x : Nibble} {nn : Byte} {i : Instr} (h : decodeFamilyF x nn = some i) :
    encode i = 0xF#4 ++ x ++ nn := by
  unfold decodeFamilyF at h
  split_ifs at h <;> cases h <;> subst nn <;> rfl

/-- The family of a word, read off as the dispatch reads it. -/
theorem fieldFam_eq {op : Word} (f : Nibble) (h : (fieldFam op).toNat = f.toNat) : fieldFam op = f :=
  BitVec.eq_of_toNat_eq h

/-- A word of format A is put together again from its family and its address. -/
theorem address_word {op : Word} (f : Nibble) (h : (fieldFam op).toNat = f.toNat) : f ++ fieldNNN op = op := by
  rw [← fieldFam_eq f h, Laws.word_of_address]

/-- A word of format XI or XF is put together again from its family, its register and its byte. -/
theorem immediate_word {op : Word} (f : Nibble) (h : (fieldFam op).toNat = f.toNat) :
    f ++ fieldX op ++ fieldNN op = op := by
  rw [← fieldFam_eq f h, Laws.word_of_immediate]

/-- A word of format XY or XYN is put together again from its four nibbles. -/
theorem registers_word {op : Word} (f : Nibble) (h : (fieldFam op).toNat = f.toNat) :
    f ++ fieldX op ++ fieldY op ++ fieldN op = op := by
  rw [← fieldFam_eq f h, Laws.word_of_registers]

/-- Settles O2: along the dispatch on the family, the operands read are the fields the encoder puts back. -/
theorem encodeOfDecodeIsTheWord : Obligations.EncodeOfDecodeIsTheWord := by
  intro op i h
  unfold decode at h
  split at h
  case h_1 => exact encode_of_decodeFamily0 h
  case h_2 hfam => cases h; exact address_word 0x1 hfam
  case h_3 hfam => cases h; exact address_word 0x2 hfam
  case h_4 hfam => cases h; exact immediate_word 0x3 hfam
  case h_5 hfam => cases h; exact immediate_word 0x4 hfam
  case h_6 hfam =>
    split_ifs at h with hn
    cases h
    exact (congrArg (0x5#4 ++ fieldX op ++ fieldY op ++ ·) hn.symm).trans (registers_word 0x5 hfam)
  case h_7 hfam => cases h; exact immediate_word 0x6 hfam
  case h_8 hfam => cases h; exact immediate_word 0x7 hfam
  case h_9 hfam => exact (encode_of_decodeFamily8 h).trans (registers_word 0x8 hfam)
  case h_10 hfam =>
    split_ifs at h with hn
    cases h
    exact (congrArg (0x9#4 ++ fieldX op ++ fieldY op ++ ·) hn.symm).trans (registers_word 0x9 hfam)
  case h_11 hfam => cases h; exact address_word 0xA hfam
  case h_12 hfam => cases h; exact address_word 0xB hfam
  case h_13 hfam => cases h; exact immediate_word 0xC hfam
  case h_14 hfam => cases h; exact registers_word 0xD hfam
  case h_15 hfam => exact (encode_of_decodeFamilyE h).trans (immediate_word 0xE hfam)
  case h_16 hfam => exact (encode_of_decodeFamilyF h).trans (immediate_word 0xF hfam)
  case h_17 => contradiction

/-! ### The opcode map (R64, R65) -/

/-- What a row of the opcode map promises: the dispatch reads every word it matches as the row does. -/
def RowDecodes (r : OpcodeRow) : Prop := ∀ op, r.matchesWord op = true → decode op = some (r.build op)

/-- A mask that covers the family shows it. -/
theorem fieldFam_of_mask {op mask v : Word} (h : op &&& mask = v) (hmask : fieldFam mask = BitVec.allOnes 4) :
    fieldFam op = fieldFam v := by
  rw [← h, fieldFam, fieldFam, BitVec.extractLsb'_and, ← fieldFam, ← fieldFam, hmask, BitVec.and_allOnes]

/-- A mask that covers the function nibble shows it. -/
theorem fieldN_of_mask {op mask v : Word} (h : op &&& mask = v) (hmask : fieldN mask = BitVec.allOnes 4) :
    fieldN op = fieldN v := by
  rw [← h, fieldN, fieldN, BitVec.extractLsb'_and, ← fieldN, ← fieldN, hmask, BitVec.and_allOnes]

/-- A mask that covers the function byte shows it. -/
theorem fieldNN_of_mask {op mask v : Word} (h : op &&& mask = v) (hmask : fieldNN mask = BitVec.allOnes 8) :
    fieldNN op = fieldNN v := by
  rw [← h, fieldNN, fieldNN, BitVec.extractLsb'_and, ← fieldNN, ← fieldNN, hmask, BitVec.and_allOnes]

theorem rowA_decodes {m : String} {v : Word} {g : Addr → Instr}
    (hdecode : ∀ nnn : Addr, decode (fieldFam v ++ nnn) = some (g nnn)) : RowDecodes (rowA m v g) := by
  intro op hmatch
  have hbits : op &&& 0xF000 = v := of_decide_eq_true hmatch
  have hfam := fieldFam_of_mask hbits (by decide)
  exact (congrArg decode (address_word _ (congrArg _ hfam))).symm.trans (hdecode _)

theorem rowXI_decodes {m : String} {v : Word} {g : Nibble → Byte → Instr}
    (hdecode : ∀ (x : Nibble) (nn : Byte), decode (fieldFam v ++ x ++ nn) = some (g x nn)) :
    RowDecodes (rowXI m v g) := by
  intro op hmatch
  have hbits : op &&& 0xF000 = v := of_decide_eq_true hmatch
  have hfam := fieldFam_of_mask hbits (by decide)
  exact (congrArg decode (immediate_word _ (congrArg _ hfam))).symm.trans (hdecode _ _)

theorem rowXY_decodes {m : String} {v : Word} {g : Nibble → Nibble → Instr}
    (hdecode : ∀ x y : Nibble, decode (fieldFam v ++ x ++ y ++ fieldN v) = some (g x y)) :
    RowDecodes (rowXY m v g) := by
  intro op hmatch
  have hbits : op &&& 0xF00F = v := of_decide_eq_true hmatch
  have hfam := fieldFam_of_mask hbits (by decide)
  have hop := registers_word _ (congrArg _ hfam)
  rw [fieldN_of_mask hbits (by decide)] at hop
  exact (congrArg decode hop).symm.trans (hdecode _ _)

theorem rowXF_decodes {m : String} {v : Word} {g : Nibble → Instr}
    (hdecode : ∀ x : Nibble, decode (fieldFam v ++ x ++ fieldNN v) = some (g x)) : RowDecodes (rowXF m v g) := by
  intro op hmatch
  have hbits : op &&& 0xF0FF = v := of_decide_eq_true hmatch
  have hfam := fieldFam_of_mask hbits (by decide)
  have hop := immediate_word _ (congrArg _ hfam)
  rw [fieldNN_of_mask hbits (by decide)] at hop
  exact (congrArg decode hop).symm.trans (hdecode _)

/-- A row whose mask is the whole word matches its value alone. -/
theorem wholeRow_decodes {m : String} {v : Word} {i : Instr} (hdecode : decode v = some i) :
    RowDecodes { mnemonic := m, mask := 0xFFFF, value := v, build := fun _ => i } := by
  intro op hmatch
  have hmask : op &&& BitVec.allOnes 16 = v := of_decide_eq_true hmatch
  rw [← BitVec.and_allOnes (x := op), hmask, hdecode]

/-- The row of `DRW`, the one instruction of format XYN. -/
theorem drwRow_decodes : RowDecodes
    { mnemonic := "DRW", mask := 0xF000, value := 0xD000,
      build := fun op => .drw (fieldX op) (fieldY op) (fieldN op) } := by
  intro op hmatch
  have hfam : fieldFam op = 0xD := fieldFam_of_mask (of_decide_eq_true hmatch) rfl
  exact (congrArg decode (registers_word 0xD (congrArg _ hfam))).symm.trans (decode_drw _ _ _)

/-- Every row of the opcode map keeps its promise. -/
theorem opcodeTable_decodes : ∀ r ∈ opcodeTable, RowDecodes r := by
  simp only [opcodeTable, List.forall_mem_append, List.forall_mem_cons]
  refine ⟨⟨?zeroTo7, ?eightToD⟩, ?eAndF⟩
  case zeroTo7 =>
    exact ⟨wholeRow_decodes decode_cls, wholeRow_decodes decode_ret, rowA_decodes decode_jp,
      rowA_decodes decode_call, rowXI_decodes decode_seImm, rowXI_decodes decode_sneImm,
      rowXY_decodes fun x y => decode_family5 x y 0, rowXI_decodes decode_ldImm, rowXI_decodes decode_addImm,
      List.forall_mem_nil _⟩
  case eightToD =>
    exact ⟨rowXY_decodes fun x y => decode_family8 x y 0x0, rowXY_decodes fun x y => decode_family8 x y 0x1,
      rowXY_decodes fun x y => decode_family8 x y 0x2, rowXY_decodes fun x y => decode_family8 x y 0x3,
      rowXY_decodes fun x y => decode_family8 x y 0x4, rowXY_decodes fun x y => decode_family8 x y 0x5,
      rowXY_decodes fun x y => decode_family8 x y 0x6, rowXY_decodes fun x y => decode_family8 x y 0x7,
      rowXY_decodes fun x y => decode_family8 x y 0xE, rowXY_decodes fun x y => decode_family9 x y 0,
      rowA_decodes decode_ldI, rowA_decodes decode_jpV0, rowXI_decodes decode_rnd, drwRow_decodes,
      List.forall_mem_nil _⟩
  case eAndF =>
    exact ⟨rowXF_decodes fun x => decode_familyE x 0x9E, rowXF_decodes fun x => decode_familyE x 0xA1,
      rowXF_decodes fun x => decode_familyF x 0x07, rowXF_decodes fun x => decode_familyF x 0x0A,
      rowXF_decodes fun x => decode_familyF x 0x15, rowXF_decodes fun x => decode_familyF x 0x18,
      rowXF_decodes fun x => decode_familyF x 0x1E, rowXF_decodes fun x => decode_familyF x 0x29,
      rowXF_decodes fun x => decode_familyF x 0x33, rowXF_decodes fun x => decode_familyF x 0x55,
      rowXF_decodes fun x => decode_familyF x 0x65, List.forall_mem_nil _⟩

/-- Every encoded word matches a row of the opcode map. -/
theorem exists_row_matches (i : Instr) : ∃ r ∈ opcodeTable, r.matchesWord (encode i) = true := by
  have h : Laws.WordMatchesRow.Statement i := by
    cases i with
    | cls => exact Laws.WordMatchesRow.cls
    | ret => exact Laws.WordMatchesRow.ret
    | jp => exact Laws.WordMatchesRow.jp _
    | call => exact Laws.WordMatchesRow.call _
    | seImm => exact Laws.WordMatchesRow.seImm _ _
    | sneImm => exact Laws.WordMatchesRow.sneImm _ _
    | seReg => exact Laws.WordMatchesRow.seReg _ _
    | ldImm => exact Laws.WordMatchesRow.ldImm _ _
    | addImm => exact Laws.WordMatchesRow.addImm _ _
    | ldReg => exact Laws.WordMatchesRow.ldReg _ _
    | orReg => exact Laws.WordMatchesRow.orReg _ _
    | andReg => exact Laws.WordMatchesRow.andReg _ _
    | xorReg => exact Laws.WordMatchesRow.xorReg _ _
    | addReg => exact Laws.WordMatchesRow.addReg _ _
    | sub => exact Laws.WordMatchesRow.sub _ _
    | shr => exact Laws.WordMatchesRow.shr _ _
    | subn => exact Laws.WordMatchesRow.subn _ _
    | shl => exact Laws.WordMatchesRow.shl _ _
    | sneReg => exact Laws.WordMatchesRow.sneReg _ _
    | ldI => exact Laws.WordMatchesRow.ldI _
    | jpV0 => exact Laws.WordMatchesRow.jpV0 _
    | rnd => exact Laws.WordMatchesRow.rnd _ _
    | drw => exact Laws.WordMatchesRow.drw _ _ _
    | skp => exact Laws.WordMatchesRow.skp _
    | sknp => exact Laws.WordMatchesRow.sknp _
    | ldVxDt => exact Laws.WordMatchesRow.ldVxDt _
    | ldVxK => exact Laws.WordMatchesRow.ldVxK _
    | ldDtVx => exact Laws.WordMatchesRow.ldDtVx _
    | ldStVx => exact Laws.WordMatchesRow.ldStVx _
    | addI => exact Laws.WordMatchesRow.addI _
    | ldF => exact Laws.WordMatchesRow.ldF _
    | ldB => exact Laws.WordMatchesRow.ldB _
    | stRegs => exact Laws.WordMatchesRow.stRegs _
    | ldRegs => exact Laws.WordMatchesRow.ldRegs _
  obtain ⟨_, r, hr, _, hmatch⟩ := h
  exact ⟨r, hr, hmatch⟩

/-- Settles O3: the row found matches the word, so the dispatch reads it as that row does; where none is found, the word
is no instruction's, since every instruction's word has a row. -/
theorem decoderAgreesWithTheOpcodeMap : Obligations.DecoderAgreesWithTheOpcodeMap := by
  intro op
  cases hfind : opcodeTable.find? fun r : OpcodeRow => r.matchesWord op with
  | some r =>
    have hmatch : r.matchesWord op = true := List.find?_some (p := fun r : OpcodeRow => r.matchesWord op) hfind
    exact opcodeTable_decodes r (List.mem_of_find?_eq_some hfind) op hmatch
  | none =>
    rw [Option.map_none, Option.eq_none_iff_forall_ne_some]
    intro i hi
    obtain ⟨r, hr, hmatch⟩ := exists_row_matches i
    rw [encodeOfDecodeIsTheWord op i hi] at hmatch
    exact List.find?_eq_none.mp hfind r hr hmatch

/-- A row builds the instruction of its own mnemonic. -/
theorem mnemonic_build : ∀ r ∈ opcodeTable, ∀ op, (r.build op).mnemonic = r.mnemonic := by
  simp [opcodeTable, rowA, rowXI, rowXY, rowXF, Instr.mnemonic]

theorem opcodeTable_mnemonics_nodup : (opcodeTable.map fun r => r.mnemonic).Nodup := by decide

/-- Settles O4: a word that two rows match decodes to what each of them builds, so the rows have the same mnemonic, and
no two rows do. -/
theorem opcodePatternsAreDisjoint : Obligations.OpcodePatternsAreDisjoint := by
  refine (List.pairwise_map.mp opcodeTable_mnemonics_nodup).imp_of_mem ?_
  rintro r r' hr hr' hne op ⟨hmatch, hmatch'⟩
  have hbuild : r.build op = r'.build op :=
    Option.some.inj ((opcodeTable_decodes r hr op hmatch).symm.trans (opcodeTable_decodes r' hr' op hmatch'))
  exact hne (by rw [← mnemonic_build r hr op, hbuild, mnemonic_build r' hr' op])

/-! ### The unrecognised words (R66, R67) -/

theorem decodeFamily0_eq_none (op : Word) : decodeFamily0 op = none ↔ op ≠ 0x00E0 ∧ op ≠ 0x00EE := by
  unfold decodeFamily0
  split_ifs <;> simp [*]

theorem decodeFamily8_eq_none (x y n : Nibble) :
    decodeFamily8 x y n = none ↔ n ∈ [0x8#4, 0x9#4, 0xA#4, 0xB#4, 0xC#4, 0xD#4, 0xF#4] := by
  have hrest : ∀ n : Nibble, n ∈ [0x8#4, 0x9#4, 0xA#4, 0xB#4, 0xC#4, 0xD#4, 0xF#4] ↔
      n ∉ [0x0#4, 0x1#4, 0x2#4, 0x3#4, 0x4#4, 0x5#4, 0x6#4, 0x7#4, 0xE#4] := by decide
  rw [hrest]
  unfold decodeFamily8
  split_ifs <;> simp [*]

theorem decodeFamilyE_eq_none (x : Nibble) (nn : Byte) : decodeFamilyE x nn = none ↔ nn ≠ 0x9E ∧ nn ≠ 0xA1 := by
  unfold decodeFamilyE
  split_ifs <;> simp [*]

theorem decodeFamilyF_eq_none (x : Nibble) (nn : Byte) : decodeFamilyF x nn = none ↔
    nn ∉ [0x07#8, 0x0A#8, 0x15#8, 0x18#8, 0x1E#8, 0x29#8, 0x33#8, 0x55#8, 0x65#8] := by
  unfold decodeFamilyF
  split_ifs <;> simp [*]

/-- Settles O5: each family's own dispatch says which of its words it leaves over, and ten families leave none. -/
theorem unrecognisedWordsByFamily : Obligations.UnrecognisedWordsByFamily := by
  intro op
  unfold decode
  split
  case h_1 hfam => simp [fieldFam_eq 0x0 hfam, decodeFamily0_eq_none]
  case h_2 hfam => simp [fieldFam_eq 0x1 hfam]
  case h_3 hfam => simp [fieldFam_eq 0x2 hfam]
  case h_4 hfam => simp [fieldFam_eq 0x3 hfam]
  case h_5 hfam => simp [fieldFam_eq 0x4 hfam]
  case h_6 hfam => simp [fieldFam_eq 0x5 hfam]
  case h_7 hfam => simp [fieldFam_eq 0x6 hfam]
  case h_8 hfam => simp [fieldFam_eq 0x7 hfam]
  case h_9 hfam => simp [fieldFam_eq 0x8 hfam, decodeFamily8_eq_none]
  case h_10 hfam => simp [fieldFam_eq 0x9 hfam]
  case h_11 hfam => simp [fieldFam_eq 0xA hfam]
  case h_12 hfam => simp [fieldFam_eq 0xB hfam]
  case h_13 hfam => simp [fieldFam_eq 0xC hfam]
  case h_14 hfam => simp [fieldFam_eq 0xD hfam]
  case h_15 hfam => simp [fieldFam_eq 0xE hfam, decodeFamilyE_eq_none]
  case h_16 hfam => simp [fieldFam_eq 0xF hfam, decodeFamilyF_eq_none]
  case h_17 =>
    have hlt : (fieldFam op).toNat < 16 := (fieldFam op).isLt
    grind

/-- Settles O6: the dispatch, run on each word. -/
theorem writtenWordsDecode : Obligations.WrittenWordsDecode := by
  unfold Obligations.WrittenWordsDecode
  decide

/-! ### Words in memory order (R41, R60) -/

/-- The two bytes of a word, upper byte first, are the word. -/
theorem word_of_bytes (op : Word) : op.extractLsb' 8 8 ++ op.extractLsb' 0 8 = op := by
  rw [BitVec.extractLsb'_append_extractLsb'_eq_extractLsb' (by rfl), BitVec.extractLsb'_eq_self]

/-- Settles O7: the two bytes put together are the encoded word, which decodes to the instruction. -/
theorem instructionBytesDecode : Obligations.InstructionBytesDecode := by
  intro i rest
  simp only [encodeBytes, wordBytes, List.cons_append, List.nil_append, decodeBytes, word_of_bytes]
  rw [decodeOfEncodeIsTheInstruction i]

end Sys2Proof.Machine
end

section
/-! PROOFS. What a completed instruction leaves unchanged, and where an instruction faults (spec/20_memory.md R54,
spec/60_exceptions.md R151, R159): two lemmas over the 34 instructions, from which the table of faults, the frames and
the totality of the step follow. -/

namespace Sys2Proof.Machine

/-! ### Frames of the remaining updates -/

section FrameUpdates

variable {regs : Nibble → Prop} {parts : List Part} {s t : State} (h : Frame regs parts s t)
include h

theorem Frame.setPc (w : Word) : Frame regs parts s (t.setPc w) :=
  { h with parts := fun p hp => (Part.same_setPc s t w p).mpr (h.parts p hp) }

theorem Frame.setMem (hmem : .memory ∈ parts) (m : Memory) : Frame regs parts s (t.setMem m) :=
  { h with parts := fun p hp => (Part.same_setMem s t m p fun heq => hp (heq ▸ hmem)).mpr (h.parts p hp) }

theorem Frame.setDt (hdelay : .delay ∈ parts) (b : Byte) : Frame regs parts s (t.setDt b) :=
  { h with parts := fun p hp => (Part.same_setDt s t b p fun heq => hp (heq ▸ hdelay)).mpr (h.parts p hp) }

theorem Frame.setSt (hsound : .sound ∈ parts) (b : Byte) : Frame regs parts s (t.setSt b) :=
  { h with parts := fun p hp => (Part.same_setSt s t b p fun heq => hp (heq ▸ hsound)).mpr (h.parts p hp) }

theorem Frame.setDrawHold (hhold : .hold ∈ parts) (b : Bool) : Frame regs parts s (t.setDrawHold b) :=
  { h with parts := fun p hp => (Part.same_setDrawHold s t b p fun heq => hp (heq ▸ hhold)).mpr (h.parts p hp) }

theorem Frame.setKeyWait (hwait : .keyWait ∈ parts) (b : Bool) (k : Nibble) :
    Frame regs parts s (t.setKeyWait b k) :=
  { h with parts := fun p hp => (Part.same_setKeyWait s t b k p fun heq => hp (heq ▸ hwait)).mpr (h.parts p hp) }

theorem Frame.spendDraw (hdraws : .draws ∈ parts) : Frame regs parts s t.spendDraw :=
  { h with parts := fun p hp => (Part.same_spendDraw s t p fun heq => hp (heq ▸ hdraws)).mpr (h.parts p hp) }

/-- Replacing the register file stays inside the frame if the new file differs in exempted registers only. -/
theorem Frame.setRegs (v : Vector Byte 16) (hv : ∀ r, ¬ regs r → (t.setRegs v).reg r = t.reg r) :
    Frame regs parts s (t.setRegs v) :=
  { h with
    regs := fun r hr => (hv r hr).trans (h.regs r hr)
    parts := fun p hp => (Part.same_setRegs s t v p).mpr (h.parts p hp) }

end FrameUpdates

theorem Frame.refl (regs : Nibble → Prop) (parts : List Part) (s : State) : Frame regs parts s s where
  regs _ _ := rfl
  parts p _ := Part.same_refl s p
  key := rfl
  runState := rfl
  faults := ⟨rfl, rfl, rfl, rfl⟩

theorem State.frame_skipOnKey_inside (s : State) (op : Word) (b : Byte) (down : Bool) (hb : b.toNat ≤ 15) :
    Frame noReg [] s (s.skipOnKey op b down) := by
  rw [State.skipOnKey_inside s op b down hb]
  exact s.frame_setPc _

/-- A move of `pc` with a new call stack leaves everything else as it was. -/
theorem State.frame_stack (s : State) (w : Word) (stack : Vector Word Config.stackDepth)
    (sp : Fin (Config.stackDepth + 1)) : Frame noReg [.stack] s { s with pc := w, stack := stack, sp := sp } where
  regs _ _ := rfl
  parts p hp := by
    cases p with
    | stack => exact absurd (List.mem_singleton_self _) hp
    | memory => exact fun _ => rfl
    | display | keyWait => exact ⟨rfl, rfl⟩
    | index | delay | sound | hold | draws => rfl
  key := rfl
  runState := rfl
  faults := ⟨rfl, rfl, rfl, rfl⟩

/-- The advance changes nothing but `pc`, so it stays inside every frame. -/
theorem State.frame_advance_of (s : State) (regs : Nibble → Prop) (parts : List Part) :
    Frame regs parts s s.advance :=
  (Frame.refl regs parts s).setPc _

/-! ### Data accesses -/

theorem dataFault_eq_none {s : State} {n : Nat} (h : dataFault s n = none) : s.i.toNat + n ≤ 4096 := by
  unfold dataFault at h
  split_ifs at h with hout
  omega

theorem dataFault_eq_some {s : State} {n : Nat} {c : FaultCause} {info : Word} (h : dataFault s n = some (c, info)) :
    4096 < s.i.toNat + n ∧ c = .dataOutOfRange ∧ info = lowestOutside s.i := by
  unfold dataFault at h
  split_ifs at h with hout
  cases h
  exact ⟨hout, rfl, rfl⟩

theorem State.access_completes {s : State} {n : Nat} (h : dataFault s n = none) (op : Word) (done : State) :
    s.access op n done = .next done :=
  s.access_inside op n done (accessInside_of_le _ _ (dataFault_eq_none h))

theorem State.access_faults {s : State} {n : Nat} {c : FaultCause} {info : Word} (hn : 0 < n)
    (h : dataFault s n = some (c, info)) (op : Word) (done : State) :
    s.access op n done = .next (s.faulted c op info) := by
  obtain ⟨hout, rfl, rfl⟩ := dataFault_eq_some h
  exact s.access_outside op n done (accessInside_of_gt _ _ hn hout)

/-- The first row of a sprite always lies on the display. -/
theorem drawnRows_pos (n : Nibble) (b : Byte) : 0 < drawnRows n (startRow b) := by
  have hrow := startRow_lt b
  have hsprite : 0 < spriteRows n := by
    unfold spriteRows
    split_ifs with hn
    · decide
    · exact Nat.pos_of_ne_zero fun h0 => hn (BitVec.eq_of_toNat_eq h0)
  unfold drawnRows
  simp only [Config.fbHeight]
  omega

/-! ### The call stack -/

theorem exec_call_room (nnn : Addr) {s : State} (h : s.sp.val < 12) : exec (.call nnn) s =
    .next { s with
      pc := addrWord nnn
      stack := s.stack.set s.sp.val (s.pc + 2) h
      sp := ⟨s.sp.val + 1, Nat.succ_lt_succ h⟩ } := by
  simp only [exec, execCall, s.push_eq_some _ h]
  rfl

theorem exec_call_full (nnn : Addr) {s : State} (h : s.sp.val = 12) :
    exec (.call nnn) s = .next (s.faulted .stackOverflow (encode (.call nnn)) (addrWord nnn)) := by
  simp only [exec, execCall, s.push_eq_none _ h]
  rfl

theorem exec_ret_entry {s : State} {k : Nat} (hk : k < 12) (h : s.sp.val = k + 1) :
    exec .ret s = .next { s with pc := s.stack[k], sp := ⟨k, Nat.lt_succ_of_lt hk⟩ } := by
  simp only [exec, execRet, s.pop_eq_some k hk h]
  rfl

theorem exec_ret_empty {s : State} (h : s.sp.val = 0) :
    exec .ret s = .next (s.faulted .stackUnderflow (encode .ret) 0) := by
  simp only [exec, execRet, s.pop_eq_none h]
  rfl

/-- `RND` (R111): one draw is spent, and its byte under the mask is written. -/
theorem exec_rnd (x : Nibble) (nn : Byte) (s : State) :
    exec (.rnd x nn) s = .next (s.advance.spendDraw.setReg x (s.rngByte &&& nn)) := rfl

/-! ### The key-wait -/

/-- With every key up there is no lowest key down. -/
theorem lowestKey_eq_none {latch : BitVec Config.nKeys} (h : latch = 0) : lowestKey latch = none := by
  subst h
  rcases lowestKey_cases 0 with ⟨hnone, _⟩ | ⟨_, _, hdown, _⟩
  · exact hnone
  · cases BitVec.getLsbD_zero.symm.trans hdown

/-- The key that is down with every key below it up is the lowest key down. -/
theorem lowestKey_eq_some {latch : BitVec Config.nKeys} {k : Nibble} (hdown : latch.getLsbD k.toNat = true)
    (hbelow : ∀ j < k.toNat, latch.getLsbD j = false) : lowestKey latch = some k := by
  rcases lowestKey_cases latch with ⟨_, hzero⟩ | ⟨j, hj, hjdown, hjbelow⟩
  · rw [hzero] at hdown
    cases BitVec.getLsbD_zero.symm.trans hdown
  · rw [hj]
    refine congrArg some (BitVec.eq_of_toNat_eq (Nat.le_antisymm ?_ ?_))
    · exact Nat.le_of_not_lt fun hlt => Bool.false_ne_true ((hjbelow _ hlt).symm.trans hdown)
    · exact Nat.le_of_not_lt fun hlt => Bool.false_ne_true ((hbelow _ hlt).symm.trans hjdown)

section KeyWait

variable (x : Nibble) {s : State}

/-- Waiting, with the captured key down: nothing changes. -/
theorem exec_ldVxK_held (hactive : s.kwActive = true) (hdown : s.keyDown s.kwKey = true) :
    exec (.ldVxK x) s = .next s := by
  simp only [exec, execLdVxK, hactive, hdown, if_true]

/-- Waiting, with the captured key up: the wait completes. -/
theorem exec_ldVxK_released (hactive : s.kwActive = true) (hup : s.keyDown s.kwKey = false) :
    exec (.ldVxK x) s = .next ((s.advance.setReg x (s.kwKey.setWidth 8)).setKeyWait false s.kwKey) := by
  simp only [exec, execLdVxK, hactive, hup, if_true, Bool.false_eq_true, if_false]

/-- Idle, with every key up: nothing changes. -/
theorem exec_ldVxK_idle (hidle : s.kwActive = false) (hkeys : s.key = 0) : exec (.ldVxK x) s = .next s := by
  simp only [exec, execLdVxK, hidle, Bool.false_eq_true, if_false, lowestKey_eq_none hkeys]

/-- Idle, with a key down: the lowest one is captured. -/
theorem exec_ldVxK_captured {k : Nibble} (hidle : s.kwActive = false) (hdown : s.key.getLsbD k.toNat = true)
    (hbelow : ∀ j < k.toNat, s.key.getLsbD j = false) : exec (.ldVxK x) s = .next (s.setKeyWait true k) := by
  simp only [exec, execLdVxK, hidle, Bool.false_eq_true, if_false, lowestKey_eq_some hdown hbelow]

end KeyWait

/-- Everything `LD Vx, K` can do: the four transitions of R146. -/
theorem exec_ldVxK_cases (x : Nibble) (s : State) :
    (s.kwActive = true ∧ s.keyDown s.kwKey = true ∧ exec (.ldVxK x) s = .next s) ∨
    (s.kwActive = true ∧ s.keyDown s.kwKey = false ∧
      exec (.ldVxK x) s = .next ((s.advance.setReg x (s.kwKey.setWidth 8)).setKeyWait false s.kwKey)) ∨
    (s.kwActive = false ∧ s.key = 0 ∧ exec (.ldVxK x) s = .next s) ∨
    (s.kwActive = false ∧ ∃ k : Nibble, s.key.getLsbD k.toNat = true ∧ (∀ j < k.toNat, s.key.getLsbD j = false) ∧
      exec (.ldVxK x) s = .next (s.setKeyWait true k)) := by
  cases hactive : s.kwActive with
  | true =>
    cases hkey : s.keyDown s.kwKey with
    | true => exact Or.inl ⟨rfl, rfl, exec_ldVxK_held x hactive hkey⟩
    | false => exact Or.inr (Or.inl ⟨rfl, rfl, exec_ldVxK_released x hactive hkey⟩)
  | false =>
    rcases lowestKey_cases s.key with ⟨_, hkeys⟩ | ⟨k, _, hdown, hbelow⟩
    · exact Or.inr (Or.inr (Or.inl ⟨rfl, hkeys, exec_ldVxK_idle x hactive hkeys⟩))
    · exact Or.inr (Or.inr (Or.inr ⟨rfl, k, hdown, hbelow, exec_ldVxK_captured x hactive hdown hbelow⟩))

/-! ### The bulk load -/

/-- The bulk load leaves the registers above `X` (R126). -/
theorem State.setRegs_loadBlock_reg (s : State) (m : Memory) (a : Nat) (x r : Nibble) :
    (s.setRegs (loadBlock m a s.v (blockSize x))).reg r =
      if r.toNat ≤ x.toNat then Memory.read m (a + r.toNat) else s.reg r := by
  have hr : r.toNat < 16 := r.isLt
  refine (loadBlock_getElem m a s.v (blockSize x) r.toNat hr).trans ?_
  simp only [State.reg, blockSize, Nat.lt_succ_iff]

/-! ### Every instruction -/

/-- Where the table of R151 gives no fault, an instruction answers a next state, in which nothing changed but its
destinations, the storage it writes, and `pc`. -/
theorem exec_completes {i : Instr} {s : State} (h : expectedFault s i = none) :
    ∃ t, exec i s = .next t ∧ Frame (destinations i) (writtenParts i) s t := by
  cases i with
  | cls => exact ⟨_, exec_cls s, s.frame_advance_show 0⟩
  | ret =>
    have hsp : s.sp.val ≠ 0 := by simpa [expectedFault] using h
    rcases s.pop_cases with ⟨k, hk, htop, _⟩ | ⟨hempty, _⟩
    · exact ⟨_, exec_ret_entry hk htop, s.frame_stack _ _ _⟩
    · contradiction
  | call nnn =>
    have hsp : s.sp.val ≠ 12 := by simpa [expectedFault] using h
    have hroom : s.sp.val < 12 := lt_of_le_of_ne (Nat.lt_succ_iff.mp s.sp.isLt) hsp
    exact ⟨_, exec_call_room nnn hroom, s.frame_stack _ _ _⟩
  | jp nnn | jpV0 nnn => exact ⟨_, rfl, s.frame_setPc _⟩
  | seImm x nn | sneImm x nn | seReg x y | sneReg x y => exact ⟨_, rfl, s.frame_skipIf _⟩
  | ldImm x nn | addImm x nn | ldReg x y | orReg x y | andReg x y | xorReg x y | ldVxDt x =>
    exact ⟨_, rfl, s.frame_advance_setReg x _⟩
  | addReg x y | sub x y | subn x y | shr x y | shl x y => exact ⟨_, rfl, s.frame_advance_setResultFlag x _ _⟩
  | ldI nnn | addI x | ldF x => exact ⟨_, rfl, s.frame_advance_setI _⟩
  | rnd x nn =>
    have hx : destinations (.rnd x nn) x := rfl
    have hdraws : Part.draws ∈ writtenParts (.rnd x nn) := List.mem_singleton_self _
    exact ⟨_, exec_rnd x nn s, ((s.frame_advance_of _ _).spendDraw hdraws).setReg hx _⟩
  | drw x y n =>
    have hflag : destinations (.drw x y n) vf := rfl
    have hdisplay : Part.display ∈ writtenParts (.drw x y n) := by simp [writtenParts]
    have hhold : Part.hold ∈ writtenParts (.drw x y n) := by simp [writtenParts]
    exact ⟨_, State.access_completes h _ _,
      (((s.frame_advance_of _ _).show hdisplay _).setReg hflag _).setDrawHold hhold _⟩
  | skp x | sknp x =>
    have hx : (s.reg x).toNat ≤ 15 := by simpa [expectedFault] using h
    exact ⟨_, rfl, s.frame_skipOnKey_inside _ _ _ hx⟩
  | ldVxK x =>
    have hx : destinations (.ldVxK x) x := rfl
    have hwait : Part.keyWait ∈ writtenParts (.ldVxK x) := List.mem_singleton_self _
    rcases exec_ldVxK_cases x s with ⟨_, _, hexec⟩ | ⟨_, _, hexec⟩ | ⟨_, _, hexec⟩ | ⟨_, k, _, _, hexec⟩
    · exact ⟨_, hexec, Frame.refl _ _ s⟩
    · exact ⟨_, hexec, ((s.frame_advance_of _ _).setReg hx _).setKeyWait hwait _ _⟩
    · exact ⟨_, hexec, Frame.refl _ _ s⟩
    · exact ⟨_, hexec, (Frame.refl _ _ s).setKeyWait hwait _ _⟩
  | ldDtVx x => exact ⟨_, rfl, (s.frame_advance_of _ _).setDt (List.mem_singleton_self _) _⟩
  | ldStVx x => exact ⟨_, rfl, (s.frame_advance_of _ _).setSt (List.mem_singleton_self _) _⟩
  | ldB x =>
    exact ⟨_, State.access_completes h _ _, (s.frame_advance_of _ _).setMem (List.mem_singleton_self _) _⟩
  | stRegs x =>
    have hmem : Part.memory ∈ writtenParts (.stRegs x) := by simp [writtenParts]
    have hindex : Part.index ∈ writtenParts (.stRegs x) := by simp [writtenParts]
    exact ⟨_, State.access_completes h _ _, ((s.frame_advance_of _ _).setMem hmem _).setI hindex _⟩
  | ldRegs x =>
    have habove : ∀ r, ¬ destinations (.ldRegs x) r →
        (s.advance.setRegs (loadBlock s.mem s.i.toNat s.v (blockSize x))).reg r = s.advance.reg r :=
      fun r hr => (s.advance.setRegs_loadBlock_reg s.mem _ x r).trans (if_neg hr)
    have hindex : Part.index ∈ writtenParts (.ldRegs x) := List.mem_singleton_self _
    exact ⟨_, State.access_completes h _ _, ((s.frame_advance_of _ _).setRegs _ habove).setI hindex _⟩

/-- Where the table of R151 gives a fault, an instruction records it, with its own word, and changes nothing else. -/
theorem exec_faults {i : Instr} {s : State} {c : FaultCause} {info : Word} (h : expectedFault s i = some (c, info)) :
    exec i s = .next (s.faulted c (encode i) info) := by
  cases i with
  | ret =>
    simp only [expectedFault, Option.ite_none_right_eq_some] at h
    obtain ⟨hsp, heq⟩ := h
    cases heq
    exact exec_ret_empty hsp
  | call nnn =>
    simp only [expectedFault, Option.ite_none_right_eq_some] at h
    obtain ⟨hsp, heq⟩ := h
    cases heq
    exact exec_call_full nnn hsp
  | drw x y n => exact State.access_faults (drawnRows_pos n _) h _ _
  | ldB x => exact State.access_faults (by decide) h _ _
  | stRegs x | ldRegs x => exact State.access_faults (Nat.succ_pos _) h _ _
  | skp x | sknp x =>
    simp only [expectedFault, Option.ite_none_right_eq_some] at h
    obtain ⟨hx, heq⟩ := h
    cases heq
    exact congrArg _ (s.skipOnKey_outside _ _ _ hx)
  | cls | jp nnn | seImm x nn | sneImm x nn | seReg x y | sneReg x y | ldI nnn | jpV0 nnn | ldImm x nn | addImm x nn
  | ldReg x y | orReg x y | andReg x y | xorReg x y | addReg x y | sub x y | subn x y | shr x y | shl x y | rnd x nn
  | ldVxDt x | ldVxK x | ldDtVx x | ldStVx x | addI x | ldF x => cases h

/-- Everything an instruction can do: complete inside its frame, or record the fault of the table. -/
theorem exec_cases (i : Instr) (s : State) :
    (expectedFault s i = none ∧ ∃ t, exec i s = .next t ∧ Frame (destinations i) (writtenParts i) s t) ∨
    (∃ c info, expectedFault s i = some (c, info) ∧ exec i s = .next (s.faulted c (encode i) info)) := by
  cases hfault : expectedFault s i with
  | none => exact Or.inl ⟨rfl, exec_completes hfault⟩
  | some p => exact Or.inr ⟨p.1, p.2, rfl, exec_faults hfault⟩

/-- A fault record belongs to no register, no part, the latch or the lifecycle state. -/
theorem State.faulted_frame (s : State) (c : FaultCause) (op info : Word) :
    (∀ r, (s.faulted c op info).reg r = s.reg r) ∧ (∀ p : Part, p.same s (s.faulted c op info)) ∧
      (s.faulted c op info).key = s.key ∧ (s.faulted c op info).runState = s.runState :=
  ⟨fun _ => rfl, fun p => (Part.same_raise s s c op info p).mpr (Part.same_refl s p), rfl, rfl⟩

/-- Settles O13: the two lemmas on completing and on faulting. -/
theorem instructionsFaultExactlyAsListed : Obligations.InstructionsFaultExactlyAsListed := by
  intro i s
  refine ⟨fun c info h => exec_faults h, fun h => ?_⟩
  obtain ⟨t, hexec, hframe⟩ := exec_completes h
  exact ⟨t, hexec, hframe.faults⟩

/-- Settles O14: a completed instruction stays inside its frame, and a fault touches the fault registers only. -/
theorem storageIsWrittenOnlyByItsInstructions : Obligations.StorageIsWrittenOnlyByItsInstructions := by
  intro i s t ht
  rcases exec_cases i s with ⟨_, u, hexec, hframe⟩ | ⟨c, info, _, hexec⟩
  · cases hexec.symm.trans ht
    exact ⟨hframe.parts, hframe.key, hframe.runState⟩
  · cases hexec.symm.trans ht
    obtain ⟨_, hparts, hkey, hrun⟩ := s.faulted_frame c (encode i) info
    exact ⟨fun p _ => hparts p, hkey, hrun⟩

/-- Settles O15: the registers of the same frame. -/
theorem registersChangeOnlyAsDestinations : Obligations.RegistersChangeOnlyAsDestinations := by
  intro i s t ht
  rcases exec_cases i s with ⟨_, u, hexec, hframe⟩ | ⟨c, info, _, hexec⟩
  · cases hexec.symm.trans ht
    exact hframe.regs
  · cases hexec.symm.trans ht
    exact fun r _ => (s.faulted_frame c (encode i) info).1 r

/-- Every instruction answers a next state. -/
theorem exec_answers (i : Instr) (s : State) : ∃ t, exec i s = .next t := by
  rcases exec_cases i s with ⟨_, t, hexec, _⟩ | ⟨_, _, _, hexec⟩
  · exact ⟨t, hexec⟩
  · exact ⟨_, hexec⟩

/-- Settles O12: each of the four ways of a step answers a next state. -/
theorem everyStepAnswersANextState : Obligations.EveryStepAnswersANextState := by
  intro s
  rcases step_cases s with ⟨_, hstep⟩ | ⟨_, _, _, hstep⟩ | ⟨_, _, _, hstep⟩ | ⟨_, _, i, _, hstep⟩
  · exact ⟨_, hstep⟩
  · exact ⟨_, hstep⟩
  · exact ⟨_, hstep⟩
  · rw [hstep]
    exact exec_answers i s

end Sys2Proof.Machine
end

section
/-! PROOFS. The invariant of the machine (spec/10_state.md, section 10; spec/40_control_flow.md R80;
spec/44_keypad_timers.md R146; spec/60_exceptions.md R151), kept by every step. -/

namespace Sys2Proof.Machine

/-! ### Memory -/

/-- A data access keeps the canonical form if the finished instruction does: its fault does not touch memory. -/
theorem State.access_keeps_wf {s t done : State} {op : Word} {n : Nat} (h : s.access op n done = .next t)
    (hwf : Memory.wf s.mem = true) (hdone : Memory.wf done.mem = true) : Memory.wf t.mem = true := by
  rcases State.access_cases s t op n done h with ⟨_, rfl⟩ | ⟨_, rfl⟩
  · exact hdone
  · exact hwf

@[simp] theorem State.skipIf_mem (s : State) (c : Bool) : (s.skipIf c).mem = s.mem := by
  rw [State.skipIf_eq, State.setPc_mem]

@[simp] theorem State.skipOnKey_mem (s : State) (op : Word) (b : Byte) (down : Bool) :
    (s.skipOnKey op b down).mem = s.mem := by
  by_cases hb : b.toNat ≤ 15
  · rw [State.skipOnKey_inside s op b down hb, State.setPc_mem]
  · rw [State.skipOnKey_outside s op b down (by omega), State.raise_mem]

/-- Every instruction keeps the canonical form of memory: only the two stores write it, byte after byte. -/
theorem exec_keeps_wf {i : Instr} {s t : State} (h : exec i s = .next t) (hwf : Memory.wf s.mem = true) :
    Memory.wf t.mem = true := by
  cases i with
  | ret => rcases exec_ret_cases s t h with ⟨_, _, _, rfl⟩ | ⟨_, rfl⟩ <;> exact hwf
  | call nnn => rcases exec_call_cases nnn s t h with ⟨_, rfl⟩ | ⟨_, rfl⟩ <;> exact hwf
  | ldVxK x =>
    rcases exec_ldVxK_cases x s with ⟨_, _, he⟩ | ⟨_, _, he⟩ | ⟨_, _, he⟩ | ⟨_, _, _, _, he⟩ <;>
      cases he.symm.trans h <;> exact hwf
  | ldB x | stRegs x => exact State.access_keeps_wf h hwf (Memory.wf_writeList _ _ _ hwf)
  | drw x y n | ldRegs x => exact State.access_keeps_wf h hwf hwf
  | seImm x nn | sneImm x nn | seReg x y | sneReg x y => cases h; rwa [State.skipIf_mem]
  | skp x | sknp x => cases h; rwa [State.skipOnKey_mem]
  | cls | jp nnn | jpV0 nnn | ldI nnn | ldImm x nn | addImm x nn | rnd x nn | ldReg x y | orReg x y | andReg x y
  | xorReg x y | addReg x y | sub x y | subn x y | shr x y | shl x y | ldVxDt x | ldDtVx x | ldStVx x | addI x
  | ldF x => cases h; exact hwf

/-! ### The program counter -/

/-- Every valid stack entry is an even address of at most 4096 (R80). -/
def State.StackOk (s : State) : Prop :=
  ∀ k (h : k < Config.stackDepth), k < s.sp.val → (s.stack[k]).toNat ≤ 4096 ∧ (s.stack[k]).getLsbD 0 = false

theorem addrWord_lt (nnn : Addr) : (addrWord nnn).toNat < 4096 := by
  rw [toNat_addrWord]
  exact nnn.isLt

theorem toNat_byteWord (b : Byte) : (byteWord b).toNat = b.toNat :=
  BitVec.toNat_setWidth_of_le (by decide)

/-- The sum of an address and a byte does not wrap (R88). -/
theorem toNat_addrWord_add_byteWord (nnn : Addr) (b : Byte) :
    (addrWord nnn + byteWord b).toNat = nnn.toNat + b.toNat := by
  have hnnn : nnn.toNat < 4096 := nnn.isLt
  have hb : b.toNat < 256 := b.isLt
  rw [BitVec.toNat_add, toNat_addrWord, toNat_byteWord]
  omega

/-- A skip moves `pc` by 2 or by 4. -/
theorem State.skipIf_pc_le (s : State) (c : Bool) (hpc : s.pc.toNat ≤ 4094) : (s.skipIf c).pc.toNat ≤ 4098 := by
  rw [State.skipIf_pc]
  split_ifs <;> bv_omega

theorem State.skipOnKey_pc_le (s : State) (op : Word) (b : Byte) (down : Bool) (hpc : s.pc.toNat ≤ 4094) :
    (s.skipOnKey op b down).pc.toNat ≤ 4098 := by
  by_cases hb : b.toNat ≤ 15
  · rw [State.skipOnKey_inside s op b down hb, State.setPc_pc]
    split_ifs <;> bv_omega
  · rw [State.skipOnKey_outside s op b down (by omega), State.raise_pc]
    omega

/-- A data access leaves `pc` at the instruction, or where the finished instruction does. -/
theorem State.access_pc_le {s t done : State} {op : Word} {n b : Nat} (h : s.access op n done = .next t)
    (hs : s.pc.toNat ≤ b) (hdone : done.pc.toNat ≤ b) : t.pc.toNat ≤ b := by
  rcases State.access_cases s t op n done h with ⟨_, rfl⟩ | ⟨_, rfl⟩
  · exact hdone
  · exact hs

/-- From a fetchable address and a valid stack, `pc` goes no further than the largest sum of `JP V0` (R13). -/
theorem exec_pc_le {i : Instr} {s t : State} (h : exec i s = .next t) (hpc : s.pc.toNat ≤ 4094) (hstack : s.StackOk) :
    t.pc.toNat ≤ 0x10FE := by
  have hnext : s.advance.pc.toNat = s.pc.toNat + 2 := State.advance_pc_toNat hpc
  cases i with
  | ret =>
    rcases exec_ret_cases s t h with ⟨k, hk, htop, rfl⟩ | ⟨_, rfl⟩
    · exact (hstack k hk (by omega)).1.trans (by decide)
    · exact hpc.trans (by decide)
  | call nnn =>
    rcases exec_call_cases nnn s t h with ⟨_, rfl⟩ | ⟨_, rfl⟩
    · exact (addrWord_lt nnn).le.trans (by decide)
    · exact hpc.trans (by decide)
  | jp nnn => cases h; exact (addrWord_lt nnn).le.trans (by decide)
  | jpV0 nnn =>
    cases h
    have hnnn : nnn.toNat < 4096 := nnn.isLt
    have hb : (s.reg 0).toNat < 256 := (s.reg 0).isLt
    rw [State.setPc_pc, toNat_addrWord_add_byteWord]
    omega
  | ldVxK x =>
    rcases exec_ldVxK_cases x s with ⟨_, _, he⟩ | ⟨_, _, he⟩ | ⟨_, _, he⟩ | ⟨_, _, _, _, he⟩ <;>
      cases he.symm.trans h
    · omega
    · exact hnext.le.trans (by omega)
    · omega
    · exact hpc.trans (by decide)
  | drw x y n | ldB x | stRegs x | ldRegs x =>
    exact State.access_pc_le h (by omega) (hnext.le.trans (by omega))
  | seImm x nn | sneImm x nn | seReg x y | sneReg x y => cases h; exact (s.skipIf_pc_le _ hpc).trans (by decide)
  | skp x | sknp x => cases h; exact (s.skipOnKey_pc_le _ _ _ hpc).trans (by decide)
  | cls | ldI nnn | ldImm x nn | addImm x nn | rnd x nn | ldReg x y | orReg x y | andReg x y | xorReg x y
  | addReg x y | sub x y | subn x y | shr x y | shl x y | ldVxDt x | ldDtVx x | ldStVx x | addI x | ldF x =>
    cases h; exact hnext.le.trans (by omega)

/-! ### The stack -/

/-- Adding 2 keeps the parity of an address. -/
theorem even_add_two (w : Word) : (w + 2).getLsbD 0 = w.getLsbD 0 := by
  rw [BitVec.getLsbD_add (by decide)]
  simp

/-- A call pushes an even address of at most 4096, a return lowers the depth, and nothing else touches the stack. -/
theorem exec_keeps_stackOk {i : Instr} {s t : State} (h : exec i s = .next t) (hpc : s.pc.toNat ≤ 4094)
    (heven : s.pc.getLsbD 0 = false) (hstack : s.StackOk) : t.StackOk := by
  by_cases hi : Part.stack ∈ writtenParts i
  case neg =>
    obtain ⟨hsame, -, -⟩ := storageIsWrittenOnlyByItsInstructions i s t h
    obtain ⟨hentries, hdepth⟩ := hsame .stack hi
    rw [State.StackOk, hentries, hdepth]
    exact hstack
  case pos =>
    cases i
    case call nnn =>
      rcases exec_call_cases nnn s t h with ⟨hroom, rfl⟩ | ⟨_, rfl⟩
      · intro k hk hlt
        rw [Vector.getElem_set]
        split_ifs with htop
        · constructor
          · bv_omega
          · rw [even_add_two, heven]
        · have hbelow : k < s.sp.val + 1 := hlt
          exact hstack k hk (by omega)
      · exact hstack
    case ret =>
      rcases exec_ret_cases s t h with ⟨k, hk, htop, rfl⟩ | ⟨_, rfl⟩
      · intro j hj hlt
        have hbelow : j < k := hlt
        exact hstack j hj (by omega)
      · exact hstack
    all_goals simp [writtenParts] at hi

/-! ### The key-wait -/

/-- The wait that a step leaves set belongs to the key-wait instruction, which stays at `pc` and in memory (R146). -/
theorem exec_keeps_keyWait {i : Instr} {s t : State} (h : exec i s = .next t) (hactive : t.kwActive = true)
    (hinv : s.kwActive = true → ∃ x, i = .ldVxK x) : (∃ x, i = .ldVxK x) ∧ t.pc = s.pc ∧ t.mem = s.mem := by
  by_cases hi : Part.keyWait ∈ writtenParts i
  case neg =>
    obtain ⟨hsame, -, -⟩ := storageIsWrittenOnlyByItsInstructions i s t h
    obtain ⟨hkw, -⟩ := hsame .keyWait hi
    obtain ⟨x, rfl⟩ := hinv (hkw ▸ hactive)
    exact absurd (List.mem_singleton_self _) hi
  case pos =>
    cases i
    case ldVxK x =>
      refine ⟨⟨x, rfl⟩, ?_⟩
      rcases exec_ldVxK_cases x s with ⟨_, _, he⟩ | ⟨_, _, he⟩ | ⟨_, _, he⟩ | ⟨_, _, _, _, he⟩ <;>
        cases he.symm.trans h
      · exact ⟨rfl, rfl⟩
      · exact nomatch hactive
      · exact ⟨rfl, rfl⟩
      · exact ⟨rfl, rfl⟩
    all_goals simp [writtenParts] at hi

/-! ### The fault record -/

/-- The record of a fault of the table of R151 is that of its cause. -/
theorem faulted_recordOk {i : Instr} {s : State} {c : FaultCause} {info : Word}
    (h : expectedFault s i = some (c, info)) : (s.faulted c (encode i) info).FaultRecordOk := by
  cases i with
  | ret =>
    simp only [expectedFault, Option.ite_none_right_eq_some] at h
    obtain ⟨hsp, heq⟩ := h
    cases heq
    exact ⟨rfl, hsp, rfl, rfl⟩
  | call nnn =>
    simp only [expectedFault, Option.ite_none_right_eq_some] at h
    obtain ⟨hsp, heq⟩ := h
    cases heq
    exact ⟨rfl, hsp, nnn, decodeOfEncodeIsTheInstruction _, rfl⟩
  | drw x y n | ldB x | stRegs x | ldRegs x =>
    obtain ⟨-, rfl, rfl⟩ := dataFault_eq_some h
    exact ⟨rfl, rfl⟩
  | skp x | sknp x =>
    simp only [expectedFault, Option.ite_none_right_eq_some] at h
    obtain ⟨hx, heq⟩ := h
    cases heq
    refine ⟨rfl, ?_⟩
    show 15 < (byteWord (s.reg x)).toNat ∧ (byteWord (s.reg x)).toNat < 256
    rw [toNat_byteWord]
    exact ⟨hx, (s.reg x).isLt⟩
  | cls | jp nnn | seImm x nn | sneImm x nn | seReg x y | sneReg x y | ldI nnn | jpV0 nnn | ldImm x nn | addImm x nn
  | ldReg x y | orReg x y | andReg x y | xorReg x y | addReg x y | sub x y | subn x y | shr x y | shl x y | rnd x nn
  | ldVxDt x | ldVxK x | ldDtVx x | ldStVx x | addI x | ldF x => cases h

/-- The record of a fetch fault is that of its cause (R152, R153). -/
theorem fetchFaulted_recordOk {s : State} {c : FaultCause} (h : fetchFault s.pc = some c) :
    (s.faulted c 0 s.pc).FaultRecordOk := by
  rcases fetchFault_cases s.pc with ⟨hout, hc⟩ | ⟨_, hodd, hc⟩ | ⟨_, _, hc⟩ <;> cases hc.symm.trans h
  · exact ⟨rfl, hout, rfl, rfl⟩
  · exact ⟨rfl, hodd, rfl, rfl⟩

/-- Without a fault the record is zero, so it stays consistent while it is unchanged. -/
theorem recordOk_of_sameFaults {s t : State} (h : s.FaultRecordOk) (hnone : s.faultCause = .noFault)
    (hsame : SameFaults s t) : t.FaultRecordOk := by
  obtain ⟨hcause, hpc, hop, hinfo⟩ := hsame
  unfold State.FaultRecordOk at h ⊢
  rw [hnone] at h
  rw [hcause, hnone]
  exact ⟨hpc.trans h.1, hop.trans h.2.1, hinfo.trans h.2.2⟩

/-! ### The step -/

/-- A fault changes nothing the invariant speaks of but the record. -/
theorem State.Inv.faulted {s : State} (h : s.Inv) {c : FaultCause} {op info : Word}
    (hrecord : (s.faulted c op info).FaultRecordOk) : (s.faulted c op info).Inv where
  mem := h.mem
  pc := h.pc
  stack := h.stack
  keyWait := h.keyWait
  faults := hrecord

/-- An address that passes the fetch checks. -/
theorem fetchFault_eq_none_iff {pc : Word} : fetchFault pc = none ↔ pc.toNat ≤ 4094 ∧ pc.getLsbD 0 = false := by
  refine ⟨fun h => ?_, fun ⟨hpc, heven⟩ => fetchFault_eq_none hpc heven⟩
  rcases fetchFault_cases pc with ⟨_, hc⟩ | ⟨_, _, hc⟩ | ⟨hpc, heven, _⟩
  · cases hc.symm.trans h
  · cases hc.symm.trans h
  · exact ⟨hpc, heven⟩

/-- The word fetched is read from memory at `pc`. -/
theorem State.fetchWord_congr {s t : State} (hpc : t.pc = s.pc) (hmem : t.mem = s.mem) : t.fetchWord = s.fetchWord := by
  simp only [State.fetchWord, State.readByte, hpc, hmem]

/-- An instruction performed at `pc` keeps the invariant. -/
theorem State.Inv.exec {s t : State} (hinv : s.Inv) (hnone : s.faultCause = .noFault) (hfetch : fetchFault s.pc = none)
    {i : Instr} (hword : decode s.fetchWord = some i) (h : exec i s = .next t) : t.Inv := by
  rcases exec_cases i s with ⟨_, u, hexec, hframe⟩ | ⟨c, info, hfault, hexec⟩ <;> cases hexec.symm.trans h
  case inr => exact hinv.faulted (faulted_recordOk hfault)
  case inl =>
    obtain ⟨hpc, heven⟩ := fetchFault_eq_none_iff.mp hfetch
    refine ⟨exec_keeps_wf h hinv.mem, exec_pc_le h hpc hinv.stack, exec_keeps_stackOk h hpc heven hinv.stack, ?_,
      recordOk_of_sameFaults hinv.faults hnone hframe.faults⟩
    intro hactive
    have hsource : s.kwActive = true → ∃ x, i = .ldVxK x := fun hs => by
      obtain ⟨-, x, hx⟩ := hinv.keyWait hs
      exact ⟨x, Option.some.inj (hword.symm.trans hx)⟩
    obtain ⟨⟨x, rfl⟩, htpc, htmem⟩ := exec_keeps_keyWait h hactive hsource
    rw [State.fetchWord_congr htpc htmem, htpc]
    exact ⟨hfetch, x, hword⟩

/-- An unrecognised word performed at `pc` keeps the invariant: no key is awaited there. -/
theorem State.Inv.advance {s : State} (hinv : s.Inv) (hnone : s.faultCause = .noFault)
    (hfetch : fetchFault s.pc = none) (hword : decode s.fetchWord = none) : s.advance.Inv where
  mem := hinv.mem
  pc := by
    obtain ⟨hpc, -⟩ := fetchFault_eq_none_iff.mp hfetch
    rw [State.advance_pc_toNat hpc]
    omega
  stack := hinv.stack
  keyWait hactive := by
    obtain ⟨-, x, hx⟩ := hinv.keyWait hactive
    cases hword.symm.trans hx
  faults := recordOk_of_sameFaults hinv.faults hnone s.frame_advance.faults

/-- Settles O16: gate closed, fetch fault, unrecognised word and instruction each keep the invariant. -/
theorem everyStepKeepsTheInvariant : Obligations.EveryStepKeepsTheInvariant := by
  intro s t hinv h
  rcases step_cases s with ⟨_, hstep⟩ | ⟨_, c, hc, hstep⟩ | ⟨hopen, hfetch, hword, hstep⟩ |
    ⟨hopen, hfetch, i, hword, hstep⟩
  · cases hstep.symm.trans h
    exact hinv
  · cases hstep.symm.trans h
    exact hinv.faulted (fetchFaulted_recordOk hc)
  · cases hstep.symm.trans h
    obtain ⟨-, hnone, -⟩ := s.open_iff.mp hopen
    exact hinv.advance hnone hfetch hword
  · obtain ⟨-, hnone, -⟩ := s.open_iff.mp hopen
    exact hinv.exec hnone hfetch hword (hstep.symm.trans h)

/-! ### Sessions -/

/-- A reset machine meets the invariant, whatever it was before. -/
theorem State.onReset_inv (s : State) : s.onReset.Inv where
  mem := reset_memory_wf
  pc := by
    show (512#16).toNat ≤ 0x10FE
    decide
  stack _ _ hk := absurd hk (Nat.not_lt_zero _)
  keyWait h := nomatch h
  faults := ⟨rfl, rfl, rfl⟩

/-- Settles O17: the reset state is what `Reset` makes of itself. -/
theorem resetMeetsTheInvariant : Obligations.ResetMeetsTheInvariant := State.onReset_inv State.reset

/-- What an accepted event that leaves the machine's core alone leaves: everything the invariant speaks of. -/
structure SameCore (s t : State) : Prop where
  mem : t.mem = s.mem
  i : t.i = s.i
  pc : t.pc = s.pc
  stack : t.stack = s.stack
  sp : t.sp = s.sp
  kwActive : t.kwActive = s.kwActive
  faults : SameFaults s t

theorem SameCore.refl (s : State) : SameCore s s := ⟨rfl, rfl, rfl, rfl, rfl, rfl, rfl, rfl, rfl, rfl⟩

/-- The invariant speaks of nothing but the core. -/
theorem SameCore.inv {s t : State} (h : SameCore s t) (hinv : s.Inv) : t.Inv := by
  obtain ⟨hmem, hi, hpc, hstack, hsp, hkw, hcause, hfpc, hop, hinfo⟩ := h
  constructor
  case mem => rw [hmem]; exact hinv.mem
  case pc => rw [hpc]; exact hinv.pc
  case stack => rw [hstack, hsp]; exact hinv.stack
  case keyWait => rw [hkw, hpc, State.fetchWord_congr hpc hmem]; exact hinv.keyWait
  case faults =>
    unfold State.FaultRecordOk
    rw [hcause, hfpc, hop, hinfo, hi, hpc, hsp]
    exact hinv.faults

theorem SameCore.onTick (s : State) : SameCore s s.onTick := by
  unfold State.onTick
  split_ifs
  · exact ⟨rfl, rfl, rfl, rfl, rfl, rfl, rfl, rfl, rfl, rfl⟩
  · exact SameCore.refl s

/-- A `LoadROM` that is answered is answered with the loaded machine, and the next one will not be. -/
theorem Session.load_next {c d : Session} {t : State} (h : c.load t = .next d) :
    c.mayLoad = true ∧ d = { machine := t, mayLoad := false } := by
  unfold Session.load at h
  split_ifs at h with hmay
  cases h
  exact ⟨hmay, rfl⟩

/-- A `Cycle` is a step of the machine. -/
theorem Session.cycle_next {c d : Session} (h : c.apply .cycle = .next d) :
    ∃ t, step c.machine = .next t ∧ d = { machine := t, mayLoad := false } := by
  obtain ⟨t, ht⟩ := everyStepAnswersANextState c.machine
  simp only [Session.apply, ht] at h
  cases h
  exact ⟨t, ht, rfl⟩

/-- On a machine just reset a `LoadROM` keeps the invariant: the writes keep the canonical form, and no key is
awaited. -/
theorem Session.Inv.onLoadRom {c : Session} (hinv : c.Inv) (hmay : c.mayLoad = true) (bytes : List Byte) :
    (c.machine.onLoadRom bytes).Inv := by
  have hfresh : c.machine.kwActive = false := by rw [hinv.fresh hmay]; rfl
  unfold State.onLoadRom
  split_ifs
  · exact SameCore.inv (s := c.machine) ⟨rfl, rfl, rfl, rfl, rfl, rfl, rfl, rfl, rfl, rfl⟩ hinv.machine
  · exact
      { mem := Memory.wf_writeList _ _ _ hinv.machine.mem
        pc := hinv.machine.pc
        stack := hinv.machine.stack
        keyWait := fun h => nomatch hfresh.symm.trans h
        faults := hinv.machine.faults }

/-- Everything an event can do to the core of the machine: reset it, load a ROM into it, run a step, or leave it. -/
theorem Session.apply_cases {c d : Session} {e : Event} (h : c.apply e = .next d) :
    (e = .reset ∧ d.machine = c.machine.onReset) ∨
    (∃ bytes, e = .loadRom bytes ∧ c.mayLoad = true ∧ d.machine = c.machine.onLoadRom bytes) ∨
    (e = .cycle ∧ step c.machine = .next d.machine) ∨
    SameCore c.machine d.machine := by
  cases e with
  | reset => cases h; exact Or.inl ⟨rfl, rfl⟩
  | loadRom bytes =>
    obtain ⟨hmay, rfl⟩ := Session.load_next h
    exact Or.inr (Or.inl ⟨bytes, rfl, hmay, rfl⟩)
  | cycle =>
    obtain ⟨t, hstep, rfl⟩ := Session.cycle_next h
    exact Or.inr (Or.inr (Or.inl ⟨rfl, hstep⟩))
  | loadRomFail =>
    obtain ⟨-, rfl⟩ := Session.load_next h
    exact Or.inr (Or.inr (Or.inr ⟨rfl, rfl, rfl, rfl, rfl, rfl, rfl, rfl, rfl, rfl⟩))
  | tick => cases h; exact Or.inr (Or.inr (Or.inr (SameCore.onTick _)))
  | keyWrite k b | quit | togglePause | redrawAck =>
    cases h
    exact Or.inr (Or.inr (Or.inr ⟨rfl, rfl, rfl, rfl, rfl, rfl, rfl, rfl, rfl, rfl⟩))

/-- A `LoadROM` has a meaning after `Reset` alone (R191). -/
theorem Session.mayLoad_next {c d : Session} {e : Event} (h : c.apply e = .next d) (hmay : d.mayLoad = true) :
    e = .reset := by
  cases e with
  | reset => rfl
  | loadRom bytes | loadRomFail => obtain ⟨-, rfl⟩ := Session.load_next h; cases hmay
  | cycle => obtain ⟨t, -, rfl⟩ := Session.cycle_next h; cases hmay
  | tick | keyWrite k b | quit | togglePause | redrawAck => cases h; cases hmay

/-- Each event of the host keeps the invariant of the session. -/
theorem Session.Inv.apply {c d : Session} {e : Event} (hinv : c.Inv) (h : c.apply e = .next d) : d.Inv where
  machine := by
    rcases Session.apply_cases h with ⟨-, hd⟩ | ⟨bytes, -, hmay, hd⟩ | ⟨-, hstep⟩ | hsame
    · rw [hd]
      exact c.machine.onReset_inv
    · rw [hd]
      exact hinv.onLoadRom hmay bytes
    · exact everyStepKeepsTheInvariant _ _ hinv.machine hstep
    · exact hsame.inv hinv.machine
  fresh hmay := by
    cases Session.mayLoad_next h hmay
    cases h
    rfl

/-- A run of one event and more is that event, then the rest. -/
theorem Session.run_cons_next {c d : Session} {e : Event} {rest : List Event} (h : c.run (e :: rest) = .next d) :
    ∃ m, c.apply e = .next m ∧ m.run rest = .next d := by
  unfold Session.run at h
  split at h
  · next m hm => exact ⟨m, hm, h⟩
  · cases h
  · cases h

/-- Settles O18, by induction on the schedule. -/
theorem everySessionKeepsTheInvariant : Obligations.EverySessionKeepsTheInvariant := by
  intro events
  induction events with
  | nil =>
    intro c d hinv h
    cases h
    exact hinv
  | cons e rest ih =>
    intro c d hinv h
    obtain ⟨m, hm, hrest⟩ := Session.run_cons_next h
    exact ih m d (hinv.apply hm) hrest

end Sys2Proof.Machine
end

section
/-! PROOFS. The `Cycle` event (spec/60_exceptions.md R150 to R165) and the end of a run (spec/70_reset_and_hazards.md
R203). -/

namespace Sys2Proof.Machine

/-- Settles O8: the gate is open and the fetch faultless, so the word at `pc` is performed. -/
theorem stepRunsTheDecodedInstruction : Obligations.StepRunsTheDecodedInstruction := by
  intro s i hrun hfault hhold hpc heven hword
  have hopen : s.open = true := s.open_iff.mpr ⟨hrun, hfault, hhold⟩
  rw [step_runWord s hopen (fetchFault_eq_none hpc heven), runWord, State.fetchWord, hword]

/-- Settles O10: each of the three conditions closes the gate. -/
theorem closedGateChangesNothing : Obligations.ClosedGateChangesNothing := by
  intro s hclosed
  refine step_closed s (Bool.eq_false_iff.mpr fun hopen => ?_)
  obtain ⟨hrun, hfault, hhold⟩ := s.open_iff.mp hopen
  rcases hclosed with h | h | h
  · exact h hrun
  · exact h hfault
  · rw [hhold] at h; cases h

/-- Settles O11: the range check comes first, then the parity (R158). -/
theorem fetchFaultsAreRecorded : Obligations.FetchFaultsAreRecorded := by
  intro s hrun hfault hhold
  have hopen : s.open = true := s.open_iff.mpr ⟨hrun, hfault, hhold⟩
  rcases fetchFault_cases s.pc with ⟨hout, hc⟩ | ⟨hin, hodd, hc⟩ | ⟨hin, heven, _⟩
  · exact ⟨fun _ => step_fetchFault s _ hopen hc, fun hin => absurd hout (by omega)⟩
  · exact ⟨fun hout => absurd hout (by omega), fun _ _ => step_fetchFault s _ hopen hc⟩
  · exact ⟨fun hout => absurd hout (by omega), fun _ hodd => nomatch heven.symm.trans hodd⟩

/-- An address in memory is the zero extension of its lower 12 bits. -/
theorem addrWord_setWidth {w : Word} (h : w.toNat ≤ 4095) : addrWord (w.setWidth 12) = w := by
  apply BitVec.eq_of_toNat_eq
  rw [toNat_addrWord, BitVec.toNat_setWidth]
  omega

/-- Settles O57: the jump sets `pc` to the `pc` it has. -/
theorem selfJumpIsQuiescent : Obligations.SelfJumpIsQuiescent := by
  rintro s ⟨hfetch, hword⟩
  cases hopen : s.open with
  | false => exact step_closed s hopen
  | true =>
    obtain ⟨hpc, -⟩ := fetchFault_eq_none_iff.mp hfetch
    rw [step_runWord s hopen hfetch, runWord, hword]
    show Host.Outcome.next (s.setPc (addrWord (s.pc.setWidth 12))) = .next s
    rw [addrWord_setWidth (by omega)]
    rfl

/-! ### A word placed at the next fetch -/

/-- Making a state ready to fetch opens its gate. -/
theorem State.readyToFetch_open (s : State) : s.readyToFetch.open = true :=
  s.readyToFetch.open_iff.mpr ⟨rfl, rfl, rfl⟩

theorem State.readyToFetch_fetch (s : State) : fetchFault s.readyToFetch.pc = none := by
  simp only [State.readyToFetch]
  split_ifs with h
  · exact h
  · decide

/-- A word laid out at a fetchable `pc` is the word fetched. -/
theorem State.placeWord_fetchWord {s : State} (hwf : Memory.wf s.mem = true) (hfetch : fetchFault s.pc = none)
    (op : Word) : (s.placeWord op).fetchWord = op := by
  obtain ⟨hpc, -⟩ := fetchFault_eq_none_iff.mp hfetch
  have hread : ∀ b, (s.placeWord op).readByte b =
      if s.pc.toNat ≤ b ∧ b < s.pc.toNat + 2 then (wordBytes op).getD (b - s.pc.toNat) 0 else s.readByte b :=
    fun b => Memory.read_writeList (wordBytes op) s.mem s.pc.toNat b hwf (by simp [wordBytes]; omega)
  have hupper : (s.placeWord op).readByte s.pc.toNat = op.extractLsb' 8 8 := by
    rw [hread, if_pos (by omega), Nat.sub_self]
    rfl
  have hlower : (s.placeWord op).readByte (s.pc.toNat + 1) = op.extractLsb' 0 8 := by
    rw [hread, if_pos (by omega), Nat.add_sub_cancel_left]
    rfl
  show (s.placeWord op).readByte s.pc.toNat ++ (s.placeWord op).readByte (s.pc.toNat + 1) = op
  rw [hupper, hlower, word_of_bytes]

/-- A table number of 16 bits is its word. -/
theorem tableWord_toNat (op : Word) : tableWord 16 op.toNat = op := by
  rw [tableWord, Nat.mod_eq_of_lt op.isLt, BitVec.ofNat_toNat, BitVec.setWidth_eq]

/-- Settles O58: placing a word keeps the gate and `pc`, so the next step fetches it, and it decodes to its
instruction. -/
theorem aPlacedInstructionRuns : Obligations.APlacedInstructionRuns := by
  intro i s hwf
  rw [State.withFetchWord, tableWord_toNat]
  have hfetch := s.readyToFetch_fetch
  have hword := State.placeWord_fetchWord (s := s.readyToFetch) hwf hfetch (encode i)
  rw [step_runWord (s.readyToFetch.placeWord (encode i)) s.readyToFetch_open hfetch, runWord, hword,
    decodeOfEncodeIsTheInstruction i]

end Sys2Proof.Machine
end

section
/-! PROOFS. The events of the host (spec/60_exceptions.md R163 to R172, spec/70_reset_and_hazards.md R190, R191). -/

namespace Sys2Proof.Machine

/-! ### What is refused, and what stays -/

/-- Settles O19: a `LoadROM` tests the session's flag, a `Cycle` always has a next state, and no other event tests
anything. -/
theorem onlyALateLoadIsRefused : Obligations.OnlyALateLoadIsRefused := by
  intro c e
  constructor
  case left =>
    rintro hlate (rfl | ⟨bytes, rfl⟩) <;> simp [Session.apply, Session.load, hlate]
  case right =>
    intro h
    cases e with
    | loadRom bytes =>
      have hmay : c.mayLoad = true := h.resolve_right fun hne => hne.2 bytes rfl
      exact ⟨_, if_pos hmay⟩
    | loadRomFail =>
      have hmay : c.mayLoad = true := h.resolve_right fun hne => hne.1 rfl
      exact ⟨_, if_pos hmay⟩
    | cycle =>
      obtain ⟨t, hstep⟩ := everyStepAnswersANextState c.machine
      exact ⟨_, by rw [Session.apply, hstep]⟩
    | reset | tick | keyWrite k b | quit | togglePause | redrawAck => exact ⟨_, rfl⟩

theorem State.onLoadRom_pc (s : State) (bytes : List Byte) : (s.onLoadRom bytes).pc = s.pc := by
  unfold State.onLoadRom
  split_ifs <;> rfl

theorem State.onLoadRom_faults (s : State) (bytes : List Byte) : SameFaults s (s.onLoadRom bytes) := by
  unfold State.onLoadRom
  split_ifs <;> exact ⟨rfl, rfl, rfl, rfl⟩

/-- Settles O20: a recorded fault closes the gate, and only a step and `Reset` write the record or `pc`. -/
theorem faultStaysUntilReset : Obligations.FaultStaysUntilReset := by
  intro c d e hfault hreset h
  rcases Session.apply_cases h with ⟨he, -⟩ | ⟨bytes, -, -, hd⟩ | ⟨-, hstep⟩ | hsame
  · exact absurd he hreset
  · rw [hd]
    exact ⟨c.machine.onLoadRom_faults bytes, c.machine.onLoadRom_pc bytes⟩
  · have hclosed := closedGateChangesNothing c.machine (Or.inr (Or.inl hfault))
    have hd : c.machine = d.machine := Host.Outcome.next.inj (hclosed.symm.trans hstep)
    rw [← hd]
    exact ⟨⟨rfl, rfl, rfl, rfl⟩, rfl⟩
  · exact ⟨hsame.faults, hsame.pc⟩

/-- Settles O21: a halted machine's gate is closed, its tick ignored, and its pause toggled to itself. -/
theorem onlyResetLeavesHalted : Obligations.OnlyResetLeavesHalted := by
  intro c d e hhalted hreset h
  cases e with
  | reset => contradiction
  | loadRom bytes =>
    obtain ⟨-, rfl⟩ := Session.load_next h
    show (c.machine.onLoadRom bytes).runState = .halted
    unfold State.onLoadRom
    split_ifs
    · rfl
    · exact hhalted
  | loadRomFail => obtain ⟨-, rfl⟩ := Session.load_next h; rfl
  | cycle =>
    obtain ⟨t, hstep, rfl⟩ := Session.cycle_next h
    have hclosed : c.machine.runState ≠ .running := by rw [hhalted]; decide
    cases (closedGateChangesNothing c.machine (Or.inl hclosed)).symm.trans hstep
    exact hhalted
  | tick =>
    cases h
    show c.machine.onTick.runState = .halted
    unfold State.onTick
    split_ifs <;> exact hhalted
  | togglePause =>
    cases h
    show c.machine.runState.togglePause = .halted
    rw [hhalted]
    rfl
  | keyWrite k b | redrawAck => cases h; exact hhalted
  | quit => cases h; rfl

theorem State.onTick_key (s : State) : s.onTick.key = s.key := by
  unfold State.onTick
  split_ifs <;> rfl

theorem State.onLoadRom_key (s : State) (bytes : List Byte) : (s.onLoadRom bytes).key = s.key := by
  unfold State.onLoadRom
  split_ifs <;> rfl

/-- Settles O59: no step writes the latch, nor does an event but `KeyWrite` and `Reset`, which zeroes it. -/
theorem latchChangesOnlyByKeyWriteAndReset : Obligations.LatchChangesOnlyByKeyWriteAndReset := by
  refine ⟨fun c d e hwrite hreset h => ?_, fun c => ⟨_, rfl, fun k => BitVec.getLsbD_zero⟩⟩
  cases e with
  | reset => contradiction
  | keyWrite k b => exact absurd rfl (hwrite k b)
  | loadRom bytes => obtain ⟨-, rfl⟩ := Session.load_next h; exact c.machine.onLoadRom_key bytes
  | loadRomFail => obtain ⟨-, rfl⟩ := Session.load_next h; rfl
  | cycle => obtain ⟨t, hstep, rfl⟩ := Session.cycle_next h; exact step_keeps_key hstep
  | tick => cases h; exact c.machine.onTick_key
  | quit | togglePause | redrawAck => cases h; rfl

/-- Settles O54: each event writes its one field by its table. -/
theorem lifecycleAndAcknowledge : Obligations.LifecycleAndAcknowledge := by
  intro c
  refine ⟨⟨_, rfl, ?running, ?paused, ?halted, rfl⟩, ⟨_, rfl, rfl⟩, ⟨_, rfl, rfl⟩⟩
  case running | paused | halted => exact fun h => congrArg RunState.togglePause h

/-! ### `Tick` -/

theorem toNat_countDown (b : Byte) : (countDown b).toNat = b.toNat - 1 := by
  unfold countDown
  split_ifs with hb
  · rw [hb]
    rfl
  · bv_omega

theorem State.onTick_enabled {s : State} (hrun : s.runState = .running) (hfault : s.faultCause = .noFault) :
    s.onTick = { s with dt := countDown s.dt, st := countDown s.st, drawHold := false } :=
  if_pos (s.enabled_iff.mpr ⟨hrun, hfault⟩)

theorem State.onTick_ignored {s : State} (h : s.runState ≠ .running ∨ s.faultCause ≠ .noFault) : s.onTick = s := by
  refine if_neg fun henabled => ?_
  obtain ⟨hrun, hfault⟩ := s.enabled_iff.mp henabled
  exact h.elim (· hrun) (· hfault)

/-- Settles O51: an accepted tick writes the two timers and the hold, and `countDown` is the truncated subtraction. -/
theorem tickCountsDown : Obligations.TickCountsDown := by
  intro s
  refine ⟨fun hrun hfault => ?_, State.onTick_ignored⟩
  have hframe : Frame noReg [.delay, .sound, .hold] s
      (((s.setDt (countDown s.dt)).setSt (countDown s.st)).setDrawHold false) :=
    (((Frame.refl _ _ s).setDt (by simp) _).setSt (by simp) _).setDrawHold (by simp) _
  rw [State.onTick_enabled hrun hfault]
  exact ⟨toNat_countDown s.dt, toNat_countDown s.st, rfl, rfl, hframe⟩

/-- `n` accepted ticks lower each timer by `n`, and the machine stays enabled. -/
theorem State.onTick_iterate (s : State) (n : Nat) (hrun : s.runState = .running) (hfault : s.faultCause = .noFault) :
    (State.onTick^[n] s).dt.toNat = s.dt.toNat - n ∧ (State.onTick^[n] s).st.toNat = s.st.toNat - n ∧
      (State.onTick^[n] s).runState = .running ∧ (State.onTick^[n] s).faultCause = .noFault := by
  induction n with
  | zero => exact ⟨rfl, rfl, hrun, hfault⟩
  | succ n ih =>
    obtain ⟨hdt, hst, hrun', hfault'⟩ := ih
    rw [Function.iterate_succ_apply', State.onTick_enabled hrun' hfault']
    refine ⟨?_, ?_, hrun', hfault'⟩
    · rw [toNat_countDown, hdt, Nat.sub_sub]
    · rw [toNat_countDown, hst, Nat.sub_sub]

/-- Settles O52: after `n` ticks the timers are the truncated differences, which are 0 exactly from the value on. -/
theorem timerReachesZeroAfterItsTicks : Obligations.TimerReachesZeroAfterItsTicks := by
  intro s n hrun hfault
  obtain ⟨hdt, hst, -, -⟩ := s.onTick_iterate n hrun hfault
  refine ⟨hdt, hst, ?delay, ?sound⟩
  case delay => rw [← BitVec.toNat_inj, hdt]; exact Nat.sub_eq_zero_iff_le
  case sound => rw [State.audioActive, decide_eq_true_iff, hst]; exact Nat.sub_pos_iff_lt

/-! ### `LoadROM` and `Reset` -/

theorem State.onLoadRom_fits (s : State) {bytes : List Byte} (h : bytes.length ≤ 3584) :
    s.onLoadRom bytes = s.setMem (Memory.writeList s.mem 512 bytes) := if_neg (Nat.not_lt.mpr h)

theorem State.onLoadRom_tooLong (s : State) {bytes : List Byte} (h : 3584 < bytes.length) :
    s.onLoadRom bytes = { s with runState := .halted } := if_pos h

/-- A `LoadROM` that has a meaning answers with the loaded machine. -/
theorem Session.load_answers {c : Session} (hmay : c.mayLoad = true) (t : State) :
    c.load t = .next { machine := t, mayLoad := false } := if_pos hmay

/-- Settles O55: the bytes that fit lie inside memory, so each is read back; otherwise only the lifecycle changes. -/
theorem romIsLoadedVerbatim : Obligations.RomIsLoadedVerbatim := by
  intro c bytes hmay hwf
  refine ⟨fun hfits => ?fits, fun hlong => ?tooLong, ⟨_, Session.load_answers hmay _, rfl⟩⟩
  case fits =>
    have hread : ∀ b, (c.machine.onLoadRom bytes).readByte b =
        if 512 ≤ b ∧ b < 512 + bytes.length then bytes.getD (b - 512) 0 else c.machine.readByte b := fun b => by
      rw [State.onLoadRom_fits _ hfits]
      exact Memory.read_writeList bytes c.machine.mem 512 b hwf (by simp only [Config.memSize]; omega)
    refine ⟨_, Session.load_answers hmay _, fun k hk => ?_, fun b hb => ?_, ?_, rfl⟩
    · rw [hread, if_pos (by omega), Nat.add_sub_cancel_left]
    · rw [hread, if_neg (by omega)]
    · rw [State.onLoadRom_fits _ hfits]
      rfl
  case tooLong => exact ⟨_, Session.load_answers hmay _, State.onLoadRom_tooLong _ hlong⟩

/-- Every register is 0 after `Reset`. -/
theorem State.onReset_reg (s : State) (r : Nibble) : s.onReset.reg r = 0 :=
  Vector.getElem_replicate _

/-- Settles O56: memory after `Reset` lists no cell, so it reads as its initial contents; the rest is written out. -/
theorem resetLeavesTheListedValues : Obligations.ResetLeavesTheListedValues := by
  intro c
  refine ⟨_, rfl, fun a ha => if_pos ha, fun a ha _ => if_neg (Nat.not_lt.mpr ha), c.machine.onReset_reg, ?_⟩
  exact ⟨rfl, rfl, rfl, rfl, rfl, rfl, rfl, rfl, rfl, rfl, rfl, rfl, rfl⟩

end Sys2Proof.Machine
end

section
/-! PROOFS. The jumps, the call and the return (spec/40_control_flow.md R80 to R82, R88). -/

namespace Sys2Proof.Machine

theorem exec_jp (nnn : Addr) (s : State) : exec (.jp nnn) s = .next (s.setPc (addrWord nnn)) := rfl

theorem exec_jpV0 (nnn : Addr) (s : State) :
    exec (.jpV0 nnn) s = .next (s.setPc (addrWord nnn + byteWord (s.reg 0))) := rfl

/-- Settles O22: the jump is one write to `pc`. -/
theorem jumpSetsThePc : Obligations.JumpSetsThePc := by
  intro nnn s
  exact ⟨decode_jp nnn, _, exec_jp nnn s, toNat_addrWord nnn, s.frame_setPc _⟩

/-- Settles O28: the jump is one write to `pc`, of a sum too small to wrap. -/
theorem jumpPlusV0 : Obligations.JumpPlusV0 := by
  intro nnn s
  have hsum := toNat_addrWord_add_byteWord nnn (s.reg 0)
  have hnnn : nnn.toNat < 4096 := nnn.isLt
  have hv0 : (s.reg 0).toNat < 256 := (s.reg 0).isLt
  exact ⟨_, exec_jpV0 nnn s, hsum, hsum.le.trans (by omega), s.frame_setPc _⟩

/-- Settles O23: with room the call writes `pc` and one entry; without, the push fails. -/
theorem callPushesTheReturnAddress : Obligations.CallPushesTheReturnAddress := by
  intro nnn s
  refine ⟨fun hroom => ?room, fun hfull => exec_call_full nnn hfull⟩
  case room =>
    refine ⟨_, exec_call_room nnn hroom, toNat_addrWord nnn, rfl, ?top, fun k hk => ?others, s.frame_stack _ _ _⟩
    case top => exact Vector.getElem?_set_self hroom
    case others => exact Vector.getElem?_set_ne hroom hk.symm

/-- Settles O24: with an entry in use the return moves `pc` and the depth; without, the pop fails. -/
theorem returnTakesTheTopEntry : Obligations.ReturnTakesTheTopEntry := by
  intro s
  refine ⟨fun hused => ?used, fun hempty => exec_ret_empty hempty⟩
  case used =>
    rcases s.pop_cases with ⟨k, hk, htop, -⟩ | ⟨hempty, -⟩
    · exact ⟨_, exec_ret_entry hk htop, htop.symm, Vector.getElem?_eq_getElem hk, fun _ _ => rfl, s.frame_stack _ _ _⟩
    · contradiction

/-- Settles O25: the return takes the entry the call pushed, and the entries below it are those the call left. -/
theorem callThenReturnComesBack : Obligations.CallThenReturnComesBack := by
  intro nnn s hroom
  refine ⟨_, exec_call_room nnn hroom, fun u hstack hsp => ?_⟩
  have htop : u.sp.val = s.sp.val + 1 := congrArg Fin.val hsp
  refine ⟨_, exec_ret_entry hroom htop, ?pc, rfl, fun k hk => ?below⟩
  case pc =>
    simp only [hstack]
    exact Vector.getElem_set_self hroom
  case below =>
    simp only [hstack]
    exact Vector.getElem?_set_ne hroom hk.ne'

end Sys2Proof.Machine
end

section
/-! PROOFS. The shifts, the random byte and the index arithmetic (spec/41_load_alu.md R108, R110, R111;
spec/42_index_memory.md R121, R122). -/

namespace Sys2Proof.Machine

/-- In `ONE_BIT` mode the amount does not depend on `V[Y]` (R108). -/
theorem exec_shr (x y : Nibble) (s : State) : exec (.shr x y) s =
    .next (s.advance.setResultFlag x (shiftedRight (s.reg x) 1) (lowBit (s.reg x))) := rfl

/-- In `ONE_BIT` mode the amount does not depend on `V[Y]` (R110). -/
theorem exec_shl (x y : Nibble) (s : State) : exec (.shl x y) s =
    .next (s.advance.setResultFlag x (shiftedLeft (s.reg x) 1) (highBit (s.reg x))) := rfl

theorem exec_addI (x : Nibble) (s : State) :
    exec (.addI x) s = .next (s.advance.setI (s.i + byteWord (s.reg x))) := rfl

theorem exec_ldF (x : Nibble) (s : State) :
    exec (.ldF x) s = .next (s.advance.setI (BitVec.ofNat 16 (Config.glyphBytes * (s.reg x).toNat))) := rfl

theorem toNat_shiftedRight_one (b : Byte) : (shiftedRight b 1).toNat = b.toNat / 2 := by
  have hb : b.toNat < 256 := b.isLt
  rw [shiftedRight, BitVec.toNat_ofNat]
  omega

theorem toNat_shiftedLeft_one (b : Byte) : (shiftedLeft b 1).toNat = b.toNat * 2 % 256 := by
  rw [shiftedLeft, BitVec.toNat_ofNat, Nat.mod_mod, Nat.pow_one]

/-- The bit shifted out to the right is the parity. -/
theorem toNat_flagByte_lowBit (b : Byte) : (flagByte (lowBit b)).toNat = b.toNat % 2 := by
  rw [lowBit, BitVec.getLsbD, Nat.testBit_zero, toNat_flagByte_decide]
  split_ifs <;> omega

/-- The bit shifted out to the left says whether the byte is at least 128. -/
theorem toNat_flagByte_highBit (b : Byte) : (flagByte (highBit b)).toNat = b.toNat / 128 := by
  have hb : b.toNat < 256 := b.isLt
  rw [highBit, BitVec.getLsbD, Nat.testBit_eq_decide_div_mod_eq, toNat_flagByte_decide]
  split_ifs <;> omega

/-- Settles O34: both shifts write a result, then the bit shifted out. -/
theorem shiftsMoveOneBit : Obligations.ShiftsMoveOneBit := by
  intro x y s
  constructor
  case left =>
    obtain ⟨t, hexec, hresult, hflag, hpc, hframe⟩ := exec_writes_result_flag (exec_shr x y s)
    exact ⟨t, hexec, fun hx => by rw [hresult hx, toNat_shiftedRight_one], by rw [hflag, toNat_flagByte_lowBit], hpc,
      hframe⟩
  case right =>
    obtain ⟨t, hexec, hresult, hflag, hpc, hframe⟩ := exec_writes_result_flag (exec_shl x y s)
    exact ⟨t, hexec, fun hx => by rw [hresult hx, toNat_shiftedLeft_one], by rw [hflag, toNat_flagByte_highBit], hpc,
      hframe⟩

/-- Settles O35: the byte the port gives for this draw, under the mask, bit by bit. -/
theorem randomByteIsMasked : Obligations.RandomByteIsMasked := by
  intro x nn s
  have hx : onlyReg x x := rfl
  have hframe : Frame (onlyReg x) [.draws] s (s.advance.spendDraw.setReg x (s.rngByte &&& nn)) :=
    ((s.frame_advance_of _ _).spendDraw (List.mem_singleton_self _)).setReg hx _
  refine ⟨_, exec_rnd x nn s, fun k => ?_, rfl, rfl, hframe⟩
  rw [State.reg_setReg_same, BitVec.getLsbD_and]
  rfl

/-- Settles O37: both write the index register alone, and the product is too small to wrap. -/
theorem indexArithmetic : Obligations.IndexArithmetic := by
  intro x s
  constructor
  case left =>
    obtain ⟨t, hexec, hindex, hpc, hframe⟩ := exec_writes_index (exec_addI x s)
    refine ⟨t, hexec, ?_, hpc, hframe⟩
    rw [hindex, BitVec.toNat_add, toNat_byteWord]
  case right =>
    obtain ⟨t, hexec, hindex, hpc, hframe⟩ := exec_writes_index (exec_ldF x s)
    refine ⟨t, hexec, ?_, hpc, hframe⟩
    have hx : (s.reg x).toNat < 256 := (s.reg x).isLt
    rw [hindex, BitVec.toNat_ofNat, Config.glyphBytes]
    omega

end Sys2Proof.Machine
end

section
/-! PROOFS. The stores and the loads through the index register (spec/42_index_memory.md R123 to R126). -/

namespace Sys2Proof.Machine

/-! ### The range check (spec/20_memory.md R45) -/

theorem State.access_in_range {s : State} {n : Nat} (h : s.i.toNat + n ≤ 4096) (op : Word) (done : State) :
    s.access op n done = .next done :=
  s.access_inside op n done (accessInside_of_le _ _ h)

theorem State.access_out_of_range {s : State} {n : Nat} (hn : 0 < n) (h : 4096 < s.i.toNat + n) (op : Word)
    (done : State) :
    s.access op n done = .next (s.faulted .dataOutOfRange op (BitVec.ofNat 16 (max s.i.toNat 4096))) :=
  s.access_outside op n done (accessInside_of_gt _ _ hn h)

/-! ### The states the three instructions leave -/

/-- The state after `LD B, Vx` (R124). -/
def State.bcdStored (s : State) (x : Nibble) : State :=
  s.advance.setMem (Memory.writeList s.mem s.i.toNat (bcdDigits (s.reg x)))

/-- The state after `LD [I], Vx` (R125). -/
def State.blockStored (s : State) (x : Nibble) : State :=
  (s.advance.setMem (Memory.writeList s.mem s.i.toNat (s.regBlock x))).setI (s.nextBlock x)

/-- The state after `LD Vx, [I]` (R126). -/
def State.blockLoaded (s : State) (x : Nibble) : State :=
  (s.advance.setRegs (loadBlock s.mem s.i.toNat s.v (blockSize x))).setI (s.nextBlock x)

theorem exec_ldB_inside (x : Nibble) {s : State} (h : s.i.toNat + 2 ≤ 4095) :
    exec (.ldB x) s = .next (s.bcdStored x) := State.access_in_range (by omega) _ _

theorem exec_stRegs_inside {x : Nibble} {s : State} (h : s.i.toNat + x.toNat ≤ 4095) :
    exec (.stRegs x) s = .next (s.blockStored x) := State.access_in_range (by unfold blockSize; omega) _ _

theorem exec_ldRegs_inside {x : Nibble} {s : State} (h : s.i.toNat + x.toNat ≤ 4095) :
    exec (.ldRegs x) s = .next (s.blockLoaded x) := State.access_in_range (by unfold blockSize; omega) _ _

/-- The next index does not wrap while the block lies in memory. -/
theorem toNat_nextBlock {x : Nibble} {s : State} (h : s.i.toNat + x.toNat ≤ 4095) :
    (s.nextBlock x).toNat = s.i.toNat + (x.toNat + 1) := by
  have hx : x.toNat < 16 := x.isLt
  rw [State.nextBlock, blockSize, BitVec.toNat_add, BitVec.toNat_ofNat]
  omega

/-! ### Memory after a store -/

/-- Memory after `LD B, Vx`, byte by byte. -/
theorem State.bcdStored_readByte {x : Nibble} {s : State} (hwf : Memory.wf s.mem = true) (h : s.i.toNat + 2 ≤ 4095)
    (b : Nat) : (s.bcdStored x).readByte b =
      if s.i.toNat ≤ b ∧ b < s.i.toNat + 3 then (bcdDigits (s.reg x)).getD (b - s.i.toNat) 0 else s.readByte b :=
  Memory.read_writeList (bcdDigits (s.reg x)) s.mem s.i.toNat b hwf (by simp [bcdDigits]; omega)

/-- The byte `k` of the three that `LD B, Vx` stores is the decimal digit of weight `10 ^ (2 - k)`. -/
theorem State.bcdStored_digit {x : Nibble} {s : State} (hwf : Memory.wf s.mem = true) (h : s.i.toNat + 2 ≤ 4095)
    {k : Nat} (hk : k < 3) :
    ((s.bcdStored x).readByte (s.i.toNat + k)).toNat = (s.reg x).toNat / 10 ^ (2 - k) % 10 := by
  have hx : (s.reg x).toNat < 256 := (s.reg x).isLt
  rw [State.bcdStored_readByte hwf h, if_pos (by omega), Nat.add_sub_cancel_left]
  interval_cases k <;> simp [bcdDigits] <;> omega

/-- Memory after `LD [I], Vx`, byte by byte. -/
theorem State.blockStored_readByte {x : Nibble} {s : State} (hwf : Memory.wf s.mem = true)
    (h : s.i.toNat + x.toNat ≤ 4095) (b : Nat) : (s.blockStored x).readByte b =
      if s.i.toNat ≤ b ∧ b < s.i.toNat + (x.toNat + 1) then (s.regBlock x).getD (b - s.i.toNat) 0
      else s.readByte b := by
  have hlength : (s.regBlock x).length = x.toNat + 1 := s.regBlock_length x
  have hread := Memory.read_writeList (s.regBlock x) s.mem s.i.toNat b hwf (by rw [hlength, Config.memSize]; omega)
  rwa [hlength] at hread

/-- Each register up to `V[X]` is read back at its place. -/
theorem State.blockStored_reg {x r : Nibble} {s : State} (hwf : Memory.wf s.mem = true)
    (h : s.i.toNat + x.toNat ≤ 4095) (hr : r.toNat ≤ x.toNat) :
    (s.blockStored x).readByte (s.i.toNat + r.toNat) = s.reg r := by
  rw [State.blockStored_readByte hwf h, if_pos (by omega), Nat.add_sub_cancel_left, State.regBlock_getD s x r hr]

/-- Each register up to `V[X]` is the byte loaded from its place. -/
theorem State.blockLoaded_reg (s : State) {x r : Nibble} (hr : r.toNat ≤ x.toNat) :
    (s.blockLoaded x).reg r = s.readByte (s.i.toNat + r.toNat) :=
  (s.advance.setRegs_loadBlock_reg s.mem s.i.toNat x r).trans (if_pos hr)

/-! ### The statements -/

/-- Settles O38: the digits are read back from the bytes written, and the range check is that of three bytes. -/
theorem decimalDigitsAreStored : Obligations.DecimalDigitsAreStored := by
  intro x s hwf
  refine ⟨fun hin => ?inside, fun hout => State.access_out_of_range (by decide) (by omega) _ _⟩
  case inside =>
    have hx : (s.reg x).toNat < 256 := (s.reg x).isLt
    have hdigit {k : Nat} (hk : k < 3) := State.bcdStored_digit (x := x) hwf hin hk
    have hframe : Frame noReg [.memory] s (s.bcdStored x) :=
      (s.frame_advance_of _ _).setMem (List.mem_singleton_self _) _
    refine ⟨_, exec_ldB_inside x hin, ?hundreds, hdigit (by decide : 1 < 3), ?units, rfl, fun b hb => ?outside, hframe⟩
    case hundreds =>
      refine (hdigit (by decide : 0 < 3)).trans ?_
      omega
    case units =>
      refine (hdigit (by decide : 2 < 3)).trans ?_
      omega
    case outside => rw [State.bcdStored_readByte hwf hin, if_neg (by omega)]

/-- Settles O39: the block is read back from the bytes written, and the range check is that of `X + 1` bytes. -/
theorem registersAreStored : Obligations.RegistersAreStored := by
  intro x s hwf
  refine ⟨fun hin => ?inside, fun hout => State.access_out_of_range (Nat.succ_pos _) (by omega) _ _⟩
  case inside =>
    have hframe : Frame noReg [.memory, .index] s (s.blockStored x) :=
      ((s.frame_advance_of _ _).setMem (by simp) _).setI (by simp) _
    refine ⟨_, exec_stRegs_inside hin, fun r hr => State.blockStored_reg hwf hin hr, toNat_nextBlock hin, rfl,
      fun b hb => ?outside, hframe⟩
    case outside => rw [State.blockStored_readByte hwf hin, if_neg (by omega)]

/-- Settles O40: the registers up to `V[X]` are the bytes of the block, and the range check is that of `X + 1` bytes. -/
theorem registersAreLoaded : Obligations.RegistersAreLoaded := by
  intro x s
  refine ⟨fun hin => ?inside, fun hout => State.access_out_of_range (Nat.succ_pos _) (by omega) _ _⟩
  case inside =>
    have habove : ∀ r : Nibble, ¬ r.toNat ≤ x.toNat →
        (s.advance.setRegs (loadBlock s.mem s.i.toNat s.v (blockSize x))).reg r = s.advance.reg r :=
      fun r hr => (s.advance.setRegs_loadBlock_reg s.mem _ x r).trans (if_neg hr)
    have hframe : Frame (fun r => r.toNat ≤ x.toNat) [.index] s (s.blockLoaded x) :=
      ((s.frame_advance_of _ _).setRegs _ habove).setI (List.mem_singleton_self _) _
    exact ⟨_, exec_ldRegs_inside hin, fun r hr => s.blockLoaded_reg hr, toNat_nextBlock hin, rfl, hframe⟩

/-- Settles O41: the load reads the addresses the store wrote. -/
theorem storeThenLoadGivesThePattern : Obligations.StoreThenLoadGivesThePattern := by
  intro x s hwf hin
  refine ⟨_, exec_stRegs_inside hin, fun u hmem hi => ?_⟩
  have hin' : u.i.toNat + x.toNat ≤ 4095 := by rw [hi]; exact hin
  refine ⟨_, exec_ldRegs_inside hin', ?index, fun r hr => ?registers⟩
  case index => exact congrArg (· + BitVec.ofNat 16 (blockSize x)) hi
  case registers =>
    rw [u.blockLoaded_reg hr, hi, State.readByte, hmem]
    exact State.blockStored_reg hwf hin hr

/-- Settles O42: the two bytes of the word fetched are the bytes of memory at `pc` and `pc + 1`, which the store
wrote. -/
theorem storedBytesAreFetched : Obligations.StoredBytesAreFetched := by
  intro x s hwf
  refine ⟨fun hin => ?block, fun hin => ?digits⟩
  case block =>
    refine ⟨_, exec_stRegs_inside hin, rfl, fun u hmem r hr => ?_⟩
    have hstored := State.blockStored_reg hwf hin hr
    rw [State.readByte, ← hmem, ← State.readByte] at hstored
    exact ⟨fun hpc => by rw [u.fetchWord_upper, hpc, hstored], fun hpc => by rw [u.fetchWord_lower, hpc, hstored]⟩
  case digits =>
    refine ⟨_, exec_ldB_inside x hin, rfl, fun u hmem k hk => ?_⟩
    have hstored := State.bcdStored_digit (x := x) hwf hin hk
    rw [State.readByte, ← hmem, ← State.readByte] at hstored
    exact ⟨fun hpc => by rw [u.fetchWord_upper, hpc, hstored], fun hpc => by rw [u.fetchWord_lower, hpc, hstored]⟩

end Sys2Proof.Machine
end

section
/-! PROOFS. The sprite (spec/43_display.md R131, R132) and the draw hold (spec/10_state.md R21). -/

namespace Sys2Proof.Machine

/-! ### The state a `DRW` leaves -/

/-- The state after `DRW Vx, Vy, n`: the canvas shown, the collision in `VF`, the hold set (R132). -/
def State.spriteDrawn (s : State) (x y n : Nibble) : State :=
  ((s.advance.show (s.drawn x y n).fb).setReg vf (flagByte (s.drawn x y n).collision)).setDrawHold true

/-- Cell `j` is under a visible 1 bit of the sprite that `DRW Vx, Vy, n` draws. -/
abbrev State.SpriteCovers (s : State) (x y n : Nibble) (j : Nat) : Prop :=
  Covers s.mem s.i.toNat (startColumn (s.reg x)) (startRow (s.reg y)) (drawnRows n (startRow (s.reg y))) j

/-- The canvas toggles the cells covered. -/
theorem State.drawn_cell (s : State) (x y n : Nibble) (j : Nat) :
    (s.drawn x y n).fb.getLsbD j = (s.fb.getLsbD j ^^ decide (s.SpriteCovers x y n j)) :=
  drawSprite_cell s.mem s.i.toNat _ _ { fb := s.fb, collision := false } _ j (drawnRows_inside n _)

/-- The canvas collides where a cell covered was set. -/
theorem State.drawn_collision (s : State) (x y n : Nibble) :
    (s.drawn x y n).collision = true ↔ ∃ j, s.SpriteCovers x y n j ∧ s.fb.getLsbD j = true := by
  have h := drawSprite_collision s.mem s.i.toNat (startColumn (s.reg x)) _ { fb := s.fb, collision := false } _
    (drawnRows_inside n (s.reg y))
  exact h.trans (by simp)

theorem flagByte_eq_one {c : Bool} : flagByte c = 1 ↔ c = true := by cases c <;> decide

theorem flagByte_zero_or_one (c : Bool) : flagByte c = 0 ∨ flagByte c = 1 := by cases c <;> decide

@[simp] theorem State.spriteDrawn_flag (s : State) (x y n : Nibble) :
    (s.spriteDrawn x y n).reg 0xF = flagByte (s.drawn x y n).collision :=
  State.reg_setReg_same _ vf _

theorem State.spriteDrawn_flag_eq_one (s : State) (x y n : Nibble) :
    (s.spriteDrawn x y n).reg 0xF = 1 ↔ ∃ j, s.SpriteCovers x y n j ∧ s.fb.getLsbD j = true := by
  rw [State.spriteDrawn_flag, flagByte_eq_one, State.drawn_collision]

/-- A `DRW` changes nothing but `pc`, `VF`, the display and the hold. -/
theorem State.spriteDrawn_frame (s : State) (x y n : Nibble) :
    Frame (onlyReg 0xF) [.display, .hold] s (s.spriteDrawn x y n) := by
  have hflag : onlyReg 0xF vf := rfl
  exact (((s.frame_advance_of _ _).show (by simp) _).setReg hflag _).setDrawHold (by simp) _

/-- A `DRW` whose drawn rows lie in memory completes. -/
theorem exec_drw_completes (x y : Nibble) {n : Nibble} {s : State}
    (h : accessInside s.i.toNat (drawnRows n (startRow (s.reg y))) = true) :
    exec (.drw x y n) s = .next (s.spriteDrawn x y n) := exec_drw_inside x y n s h

/-- A `DRW` that records no fault has completed. -/
theorem exec_drw_of_noFault {x y n : Nibble} {s t : State} (h : exec (.drw x y n) s = .next t)
    (hfault : t.faultCause = .noFault) :
    accessInside s.i.toNat (drawnRows n (startRow (s.reg y))) = true ∧ t = s.spriteDrawn x y n := by
  rcases State.access_cases s t _ _ _ h with ⟨hin, rfl⟩ | ⟨_, rfl⟩
  · exact ⟨hin, rfl⟩
  · cases hfault

/-! ### Cells by column and row -/

/-- A cell of the display is covered exactly if the sprite has a 1 bit at its row and column. -/
theorem covers_iff_spriteBit (s : State) {x0 y0 rows col row : Nat} (hcol : col < 64) :
    Covers s.mem s.i.toNat x0 y0 rows (row * 64 + col) ↔ spriteBit s x0 y0 rows col row = true := by
  simp only [spriteBit, Bool.and_eq_true, decide_eq_true_eq, State.readByte]
  constructor
  · rintro ⟨r, hr, c, hc, hvisible, hpixel, hcell⟩
    simp only [cellIndex, Config.fbWidth] at hcell
    obtain ⟨rfl, rfl⟩ : row = y0 + r ∧ col = x0 + c := by omega
    refine ⟨by omega, ?_⟩
    rwa [Nat.add_sub_cancel_left, Nat.add_sub_cancel_left]
  · rintro ⟨⟨hleft, hright, htop, hbottom⟩, hpixel⟩
    refine ⟨row - y0, by omega, col - x0, by omega, by omega, hpixel, ?_⟩
    simp only [cellIndex, Config.fbWidth, Nat.add_sub_cancel' hleft, Nat.add_sub_cancel' htop]

/-- Only cells of the display are covered. -/
theorem exists_cell_of_covers {m : Memory} {a x0 y0 rows j : Nat} (hrows : y0 + rows ≤ 32)
    (h : Covers m a x0 y0 rows j) : ∃ col row, col < 64 ∧ row < 32 ∧ j = row * 64 + col := by
  obtain ⟨r, hr, c, hc, hvisible, -, hj⟩ := h
  exact ⟨x0 + c, y0 + r, by omega, by omega, hj⟩

/-- Settles O44: the cells toggled and the cells that collide are the cells covered, read by column and row. -/
theorem spriteIsDrawn : Obligations.SpriteIsDrawn := by
  rintro x y n s x0 y0 rows rfl rfl rfl
  have hpos : 0 < visibleRows n ((s.reg y).toNat % 32) := drawnRows_pos n (s.reg y)
  have hcovers {col row : Nat} (hcol : col < 64) : s.SpriteCovers x y n (row * 64 + col) ↔ _ :=
    covers_iff_spriteBit s hcol
  refine ⟨fun hin => ?inside, fun hout => State.access_out_of_range hpos (by omega) _ _⟩
  case inside =>
    have hin' : s.i.toNat + drawnRows n (startRow (s.reg y)) ≤ 4096 := by
      change s.i.toNat + visibleRows n ((s.reg y).toNat % 32) ≤ 4096
      omega
    refine ⟨_, exec_drw_completes x y (accessInside_of_le _ _ hin'), fun col row hcol _ => ?cells, ?flag, ?collision,
      rfl, rfl, rfl, s.spriteDrawn_frame x y n⟩
    case cells =>
      refine (s.drawn_cell x y n (row * 64 + col)).trans (congrArg (s.cell col row ^^ ·) ?_)
      rw [Bool.eq_iff_iff, decide_eq_true_iff]
      exact hcovers hcol
    case flag =>
      rw [State.spriteDrawn_flag]
      exact flagByte_zero_or_one _
    case collision =>
      rw [State.spriteDrawn_flag_eq_one]
      constructor
      · rintro ⟨j, hj, hset⟩
        obtain ⟨col, row, hcol, hrow, rfl⟩ := exists_cell_of_covers (drawnRows_inside n (s.reg y)) hj
        exact ⟨col, row, hcol, hrow, (hcovers hcol).mp hj, hset⟩
      · rintro ⟨col, row, hcol, hrow, hbit, hset⟩
        exact ⟨row * 64 + col, (hcovers hcol).mpr hbit, hset⟩

/-! ### The same sprite again -/

theorem cell_of_clear {fb : BitVec Config.fbCells} (h : fb = 0) (j : Nat) : fb.getLsbD j = false := by
  rw [h]
  exact BitVec.getLsbD_zero

/-- A framebuffer is not clear exactly if a cell is set. -/
theorem ne_clear_iff {fb : BitVec Config.fbCells} : fb ≠ 0 ↔ ∃ j, fb.getLsbD j = true := by
  constructor
  · intro hne
    by_contra hnone
    refine hne (BitVec.eq_of_getLsbD_eq fun j _ => ?_)
    exact (Bool.eq_false_iff.mpr fun hj => hnone ⟨j, hj⟩).trans BitVec.getLsbD_zero.symm
  · rintro ⟨j, hj⟩ hclear
    exact nomatch (cell_of_clear hclear j).symm.trans hj

/-- Settles O45: the second draw covers the same cells, so it toggles them back; on a clear screen the cells set in
between are exactly the cells covered. -/
theorem drawingTwiceRestoresTheScreen : Obligations.DrawingTwiceRestoresTheScreen := by
  intro x y n s t u _ hexec hfault hmem hi hfb hx hy
  obtain ⟨hin, rfl⟩ := exec_drw_of_noFault hexec hfault
  replace hmem : u.mem = s.mem := hmem
  replace hi : u.i = s.i := hi
  have hcovers : ∀ j, u.SpriteCovers x y n j ↔ s.SpriteCovers x y n j := fun j => by
    rw [State.SpriteCovers, hmem, hi, hx, hy]
  have hdrawn : ∀ j, u.fb.getLsbD j = (s.fb.getLsbD j ^^ decide (s.SpriteCovers x y n j)) := fun j => by
    rw [hfb]
    exact s.drawn_cell x y n j
  refine ⟨_, exec_drw_completes x y (by rw [hi, hy]; exact hin), ?restored, fun hclear => ⟨?first, ?second⟩⟩
  case restored =>
    apply BitVec.eq_of_getLsbD_eq
    intro j _
    refine (u.drawn_cell x y n j).trans ?_
    rw [hdrawn, decide_eq_decide.mpr (hcovers j), Bool.xor_assoc, Bool.xor_self, Bool.xor_false]
  case first =>
    rw [State.spriteDrawn_flag]
    refine (flagByte_zero_or_one _).resolve_right fun hone => ?_
    obtain ⟨j, -, hset⟩ := (s.drawn_collision x y n).mp (flagByte_eq_one.mp hone)
    exact nomatch (cell_of_clear hclear j).symm.trans hset
  case second =>
    have hset : ∀ j, u.fb.getLsbD j = true ↔ u.SpriteCovers x y n j := fun j => by
      rw [hdrawn, cell_of_clear hclear, Bool.false_xor, decide_eq_true_iff, hcovers]
    rw [State.spriteDrawn_flag_eq_one, ← hfb, ne_clear_iff]
    exact exists_congr fun j => and_iff_right_of_imp (hset j).mp

/-! ### The draw hold -/

/-- A state that steps to itself is left by any number of steps. -/
theorem run_of_step_self {M : Host.Core} {s : M.State} (h : M.step s = .next s) (k : Nat) : M.run k s = .next s := by
  induction k with
  | zero => rfl
  | succ k ih =>
    rw [Host.Core.run, h]
    exact ih

/-- Settles O46: the hold closes the gate of a running machine, and the tick clears it. -/
theorem drawHoldsTheEngineUntilATick : Obligations.DrawHoldsTheEngineUntilATick := by
  intro x y n s t hrun hnone hexec hfault
  obtain ⟨-, rfl⟩ := exec_drw_of_noFault hexec hfault
  have hclosed : (s.spriteDrawn x y n).open = false :=
    Bool.eq_false_iff.mpr fun hopen => nomatch ((State.open_iff _).mp hopen).2.2
  have htick := State.onTick_enabled (s := s.spriteDrawn x y n) hrun hfault
  refine ⟨run_of_step_self (M := core) (step_closed _ hclosed), hclosed, ?opened, ?pc⟩
  case opened => rw [htick, State.open_iff]; exact ⟨hrun, hfault, rfl⟩
  case pc => rw [htick]; rfl

end Sys2Proof.Machine
end

section
/-! PROOFS. The keys and the timers (spec/44_keypad_timers.md R140 to R146). -/

namespace Sys2Proof.Machine

theorem exec_skp (x : Nibble) (s : State) :
    exec (.skp x) s = .next (s.skipOnKey (encode (.skp x)) (s.reg x) true) := rfl

theorem exec_sknp (x : Nibble) (s : State) :
    exec (.sknp x) s = .next (s.skipOnKey (encode (.sknp x)) (s.reg x) false) := rfl

/-- A skip on a register that names a key moves `pc` by 4 if the key is as asked, and by 2 if not. -/
theorem State.skipOnKey_pc (s : State) (op : Word) {b : Byte} (down : Bool) (hb : b.toNat ≤ 15) :
    (s.skipOnKey op b down).pc = s.pc + if s.key.getLsbD b.toNat = down then 4 else 2 := by
  rw [State.skipOnKey_inside s op b down hb, State.setPc_pc]
  simp only [beq_iff_eq]
  split_ifs <;> rfl

/-- Settles O47: both are the skip on the key of the register, `SKNP` asking for it to be up. -/
theorem keySkips : Obligations.KeySkips := by
  intro x s
  refine ⟨fun hin => ⟨?down, ?up⟩, fun hout => ⟨?downFault, ?upFault⟩⟩
  case down => exact ⟨_, exec_skp x s, s.skipOnKey_pc _ true hin, s.frame_skipOnKey_inside _ _ _ hin⟩
  case up =>
    refine ⟨_, exec_sknp x s, ?_, s.frame_skipOnKey_inside _ _ _ hin⟩
    rw [s.skipOnKey_pc _ false hin]
    cases s.key.getLsbD (s.reg x).toNat <;> rfl
  case downFault => exact (exec_skp x s).trans (congrArg _ (s.skipOnKey_outside _ _ _ hout))
  case upFault => exact (exec_sknp x s).trans (congrArg _ (s.skipOnKey_outside _ _ _ hout))

/-- A key-wait that completes writes one register, the wait and `pc`. -/
theorem State.frame_keyWait_released (s : State) (x : Nibble) (b : Byte) (active : Bool) (k : Nibble) :
    Frame (onlyReg x) [.keyWait] s ((s.advance.setReg x b).setKeyWait active k) := by
  have hx : onlyReg x x := rfl
  exact ((s.frame_advance_of _ _).setReg hx b).setKeyWait (List.mem_singleton_self _) active k

/-- Settles O48: the four transitions, each from its hypotheses. -/
theorem keyWaitTransitions : Obligations.KeyWaitTransitions := by
  intro x s
  refine ⟨fun hidle hup => ?idle, fun k hidle hdown hbelow => ?captured, fun hactive hdown => ?held,
    fun hactive hup => ?released⟩
  case idle =>
    have hkeys : s.key = 0 := BitVec.eq_of_getLsbD_eq fun k hk => (hup k hk).trans BitVec.getLsbD_zero.symm
    exact exec_ldVxK_idle x hidle hkeys
  case captured =>
    exact ⟨_, exec_ldVxK_captured x hidle hdown hbelow, rfl, rfl, rfl,
      (Frame.refl _ _ s).setKeyWait (List.mem_singleton_self _) _ _⟩
  case held => exact exec_ldVxK_held x hactive hdown
  case released =>
    refine ⟨_, exec_ldVxK_released x hactive hup, ?_, rfl, rfl, s.frame_keyWait_released x _ _ _⟩
    rw [State.setKeyWait_reg, State.reg_setReg_same]
    exact BitVec.toNat_setWidth_of_le (by decide)

theorem exec_ldVxDt (x : Nibble) (s : State) : exec (.ldVxDt x) s = .next (s.advance.setReg x s.dt) := rfl

theorem exec_ldDtVx (x : Nibble) (s : State) : exec (.ldDtVx x) s = .next (s.advance.setDt (s.reg x)) := rfl

theorem exec_ldStVx (x : Nibble) (s : State) : exec (.ldStVx x) s = .next (s.advance.setSt (s.reg x)) := rfl

/-- Settles O49: three copies of a byte; `audio_active` is read off the sound timer. -/
theorem timerCopies : Obligations.TimerCopies := by
  intro x s
  refine ⟨decode_familyF x 0x07, decode_familyF x 0x15, decode_familyF x 0x18, exec_writes_reg (exec_ldVxDt x s),
    ?delay, ?sound⟩
  case delay =>
    exact ⟨_, exec_ldDtVx x s, rfl, rfl, (s.frame_advance_of _ _).setDt (List.mem_singleton_self _) _⟩
  case sound =>
    exact ⟨_, exec_ldStVx x s, rfl, decide_eq_true_iff, rfl,
      (s.frame_advance_of _ _).setSt (List.mem_singleton_self _) _⟩

end Sys2Proof.Machine
end

section
/-! PROOFS. No instruction reads the sound timer or the redraw flag (spec/10_state.md R16, R18). -/

namespace Sys2Proof.Machine

/-- The state with another sound timer and another redraw flag. -/
def State.withSound (s : State) (b : Byte) (f : Bool) : State := { s with st := b, redraw := f }

/-- The two states differ in the sound timer and the redraw flag at most. -/
def SameButSound (t u : State) : Prop := u = { t with st := u.st, redraw := u.redraw }

/-- A data access reads the index register alone. -/
theorem State.access_withSound {s t done done' : State} {op : Word} {n : Nat} (h : s.access op n done = .next t)
    (b : Byte) (f : Bool) (hdone : SameButSound done done') :
    ∃ u, (s.withSound b f).access op n done' = .next u ∧ SameButSound t u := by
  rcases State.access_cases s t op n done h with ⟨hin, rfl⟩ | ⟨hout, rfl⟩
  · exact ⟨_, State.access_inside (s.withSound b f) op n done' hin, hdone⟩
  · exact ⟨_, State.access_outside (s.withSound b f) op n done' hout, rfl⟩

/-- A skip reads `pc` alone. -/
theorem State.skipIf_withSound (s : State) (b : Byte) (f c : Bool) :
    SameButSound (s.skipIf c) ((s.withSound b f).skipIf c) := by
  rw [State.skipIf_eq, State.skipIf_eq]
  rfl

/-- A skip on a key reads `pc` and the latch alone. -/
theorem State.skipOnKey_withSound (s : State) (b : Byte) (f : Bool) (op : Word) (r : Byte) (down : Bool) :
    SameButSound (s.skipOnKey op r down) ((s.withSound b f).skipOnKey op r down) := by
  by_cases hr : r.toNat ≤ 15
  · rw [State.skipOnKey_inside s op r down hr, State.skipOnKey_inside _ op r down hr]
    rfl
  · rw [State.skipOnKey_outside s op r down (by omega), State.skipOnKey_outside _ op r down (by omega)]
    rfl

/-- Every instruction answers the same from such a state, up to those two elements. -/
theorem exec_withSound {i : Instr} {s t : State} (h : exec i s = .next t) (b : Byte) (f : Bool) :
    ∃ u, exec i (s.withSound b f) = .next u ∧ SameButSound t u := by
  cases i with
  | ret =>
    rcases exec_ret_cases s t h with ⟨k, hk, htop, rfl⟩ | ⟨hempty, rfl⟩
    · exact ⟨_, exec_ret_entry (s := s.withSound b f) hk htop, rfl⟩
    · exact ⟨_, exec_ret_empty (s := s.withSound b f) hempty, rfl⟩
  | call nnn =>
    rcases exec_call_cases nnn s t h with ⟨hroom, rfl⟩ | ⟨hfull, rfl⟩
    · exact ⟨_, exec_call_room nnn (s := s.withSound b f) hroom, rfl⟩
    · exact ⟨_, exec_call_full nnn (s := s.withSound b f) hfull, rfl⟩
  | ldVxK x =>
    rcases exec_ldVxK_cases x s with ⟨hactive, hdown, he⟩ | ⟨hactive, hup, he⟩ | ⟨hidle, hkeys, he⟩ |
      ⟨hidle, k, hdown, hbelow, he⟩ <;> cases he.symm.trans h
    · exact ⟨_, exec_ldVxK_held x (s := s.withSound b f) hactive hdown, rfl⟩
    · exact ⟨_, exec_ldVxK_released x (s := s.withSound b f) hactive hup, rfl⟩
    · exact ⟨_, exec_ldVxK_idle x (s := s.withSound b f) hidle hkeys, rfl⟩
    · exact ⟨_, exec_ldVxK_captured x (s := s.withSound b f) hidle hdown hbelow, rfl⟩
  | drw x y n | ldB x | stRegs x | ldRegs x => exact State.access_withSound h b f rfl
  | seImm x nn | sneImm x nn | seReg x y | sneReg x y => cases h; exact ⟨_, rfl, s.skipIf_withSound b f _⟩
  | skp x | sknp x => cases h; exact ⟨_, rfl, s.skipOnKey_withSound b f _ _ _⟩
  | cls | jp nnn | jpV0 nnn | ldI nnn | ldImm x nn | addImm x nn | rnd x nn | ldReg x y | orReg x y | andReg x y
  | xorReg x y | addReg x y | sub x y | subn x y | shr x y | shl x y | ldVxDt x | ldDtVx x | ldStVx x | addI x
  | ldF x => cases h; exact ⟨_, rfl, rfl⟩

/-- Settles O50: the case analysis over the instructions, by what each operation reads. -/
theorem noInstructionReadsSoundOrRedraw : Obligations.NoInstructionReadsSoundOrRedraw :=
  fun _ _ _ b f h => exec_withSound h b f

end Sys2Proof.Machine
end
